-- ==== Sys2Proof/Word.lean ====
section
/-! DEFINITION. The machine's word: an unsigned byte (R2, R10 of spec/00_scope.md and spec/10_state.md). -/

namespace Sys2Proof

/-- `WORD`, the width of a register and of a memory cell: 8 bits, unsigned (R2, R10). -/
abbrev Byte := BitVec 8

/-- `v mod 256`: how every register and memory write narrows an exact natural result (R3, R10). -/
def byteOfNat (n : Nat) : Byte := BitVec.ofNat 8 n

end Sys2Proof
end

