-- ==== Sys2Proof/Config.lean ====
section
/-! DEFINITION. The parameters of R2 (spec/00_scope.md): the opcode map, ADDI's byte, the stack sentinel
and the underflow policy, with the one free value the spec leaves open (ADDI's byte). The default values
stand in Sys2Proof/Decode.lean. -/

namespace Sys2Proof

/-- The 21 mnemonics of the opcode table (R64), the fixed, closed set of handlers the decoder selects from. -/
inductive Op where
  | hlt | ret
  | push | pop | prn | call | jmp | jeq | jne | not
  | ldi | add | mul | mod | cmp | and | or | xor | shl | shr | addi
  deriving DecidableEq, Repr

/-- `OPCODE_MAP` (R2, R64): the bytes of the 19 opcodes whose value the source does not fix. LDI's byte is
fixed by the source and ADDI's is a parameter of its own, so neither stands here. -/
structure OpcodeMap where
  prn  : Byte
  hlt  : Byte
  mul  : Byte
  add  : Byte
  and  : Byte
  or   : Byte
  xor  : Byte
  not  : Byte
  shl  : Byte
  shr  : Byte
  mod  : Byte
  push : Byte
  pop  : Byte
  call : Byte
  ret  : Byte
  cmp  : Byte
  jeq  : Byte
  jne  : Byte
  jmp  : Byte
  deriving DecidableEq, Repr

/-- The block's parameters (R2). They are configuration, not architectural state (spec/10_state.md): no
step writes them. -/
structure Config where
  /-- `OPCODE_MAP`. -/
  opcodeMap : OpcodeMap
  /-- `ADDI_OPCODE`, the open parameter of R68. -/
  addiOpcode : Byte
  /-- `STACK_SENTINEL`, the empty-stack address, 1..128 (R140). -/
  stackSentinel : Byte
  /-- `UNDERFLOW_FATAL`, the stack-underflow policy (R143). -/
  underflowFatal : Bool
  deriving DecidableEq, Repr

/-- DESIGN CHOICE (log entry 2), safe. WHICH of the 54 admissible bytes ADDI's opcode is (R68, D3: no
value can be justified). It has no body, so no proof can learn it, and a claim about the machine after
reset holds for every admissible byte. -/
opaque Config.addiChoice : Fin 54

end Sys2Proof
end

