-- ==== Sys2Proof/Syntax.lean ====
section
/-! DEFINITION. The instructions: one constructor per row of spec/opcode_table.json, its operands the
operand bytes in address order (R61, R62 of spec/30_encoding.md). -/

namespace Sys2Proof

/-- An instruction with its operand bytes as the memory holds them. A register operand is the WHOLE byte
(R12, R62): an index of 8 or more is a legal encoding whose execution raises OutOfBounds(register). -/
inductive Instr where
  /-- `LDI r, imm` (R100). -/
  | ldi (r imm : Byte)
  /-- `PRN r` (R101). -/
  | prn (r : Byte)
  /-- `HLT` (R102). -/
  | hlt
  /-- `MUL a, b` (R111). -/
  | mul (a b : Byte)
  /-- `ADD a, b` (R112). -/
  | add (a b : Byte)
  /-- `AND a, b` (R113). -/
  | and (a b : Byte)
  /-- `OR a, b` (R114). -/
  | or (a b : Byte)
  /-- `XOR a, b` (R115). -/
  | xor (a b : Byte)
  /-- `NOT a` (R116). -/
  | not (a : Byte)
  /-- `SHL a, b` (R117). -/
  | shl (a b : Byte)
  /-- `SHR a, b` (R118). -/
  | shr (a b : Byte)
  /-- `MOD a, b` (R119). -/
  | mod (a b : Byte)
  /-- `PUSH r` (R145). -/
  | push (r : Byte)
  /-- `POP r` (R146). -/
  | pop (r : Byte)
  /-- `CALL r` (R160). -/
  | call (r : Byte)
  /-- `RET` (R161). -/
  | ret
  /-- `CMP a, b` (R165). -/
  | cmp (a b : Byte)
  /-- `JEQ r` (R166). -/
  | jeq (r : Byte)
  /-- `JNE r` (R167). -/
  | jne (r : Byte)
  /-- `JMP r` (R168). -/
  | jmp (r : Byte)
  /-- `ADDI imm, r` (R180): the immediate comes FIRST. -/
  | addi (imm r : Byte)
  deriving DecidableEq, Repr

end Sys2Proof
end

