-- ==== Sys2Proof/WellFormed.lean ====
section
/-! DEFINITION. Which instructions name only registers that exist. The encoding itself has no ill-formed
operand (R67 of spec/30_encoding.md): an ill-formed instruction is encodable, is decoded, and raises
OutOfBounds(register) when it is executed (R12 of spec/10_state.md). -/

namespace Sys2Proof

/-- The bytes of an instruction that the opcode table says are register indexes, in operand order: the
order in which `CheckReg` is applied to them (R12, R72). -/
def Instr.regOperands : Instr → List Byte
  | .ldi r _ => [r]
  | .prn r => [r]
  | .hlt => []
  | .mul a b => [a, b]
  | .add a b => [a, b]
  | .and a b => [a, b]
  | .or a b => [a, b]
  | .xor a b => [a, b]
  | .not a => [a]
  | .shl a b => [a, b]
  | .shr a b => [a, b]
  | .mod a b => [a, b]
  | .push r => [r]
  | .pop r => [r]
  | .call r => [r]
  | .ret => []
  | .cmp a b => [a, b]
  | .jeq r => [r]
  | .jne r => [r]
  | .jmp r => [r]
  | .addi _ r => [r]

/-- `NREG` = 8: a byte names a register when it is below 8 (R10, R12). -/
def isReg (i : Byte) : Bool := decide (i.toNat < 8)

/-- Every register operand names one of R0..R7. -/
def Instr.wellFormed (i : Instr) : Bool := i.regOperands.all isReg

end Sys2Proof
end

