-- ==== Sys2Proof/Decode.lean ====
section
/-! DEFINITION. The opcode map, the decoder and the encoder (spec/30_encoding.md), and the default values
of the parameters. The decoder is total on any bytes and rejects by name. -/

namespace Sys2Proof

/-- The operand count tag of an opcode byte, `op[7:6]`, 0..3 (R60). -/
def opTag (op : Byte) : Nat := op.toNat / 64

/-- The number of operand bytes the opcode table gives an instruction (R61). -/
def Op.operandCount : Op → Nat
  | .hlt => 0
  | .ret => 0
  | .push => 1
  | .pop => 1
  | .prn => 1
  | .call => 1
  | .jmp => 1
  | .jeq => 1
  | .jne => 1
  | .not => 1
  | .ldi => 2
  | .add => 2
  | .mul => 2
  | .mod => 2
  | .cmp => 2
  | .and => 2
  | .or => 2
  | .xor => 2
  | .shl => 2
  | .shr => 2
  | .addi => 2

/-- Every mnemonic of the table, ADDI, whose byte is open, last. -/
def Op.all : List Op :=
  [.hlt, .ret, .push, .pop, .prn, .call, .jmp, .jeq, .jne, .not,
   .ldi, .add, .mul, .mod, .cmp, .and, .or, .xor, .shl, .shr, .addi]

/-- The opcode byte of a mnemonic under the parameters (R64). LDI's is the one byte the source gives. -/
def Config.opcode (c : Config) : Op → Byte
  | .hlt => c.opcodeMap.hlt
  | .ret => c.opcodeMap.ret
  | .push => c.opcodeMap.push
  | .pop => c.opcodeMap.pop
  | .prn => c.opcodeMap.prn
  | .call => c.opcodeMap.call
  | .jmp => c.opcodeMap.jmp
  | .jeq => c.opcodeMap.jeq
  | .jne => c.opcodeMap.jne
  | .not => c.opcodeMap.not
  | .ldi => 0x82#8
  | .add => c.opcodeMap.add
  | .mul => c.opcodeMap.mul
  | .mod => c.opcodeMap.mod
  | .cmp => c.opcodeMap.cmp
  | .and => c.opcodeMap.and
  | .or => c.opcodeMap.or
  | .xor => c.opcodeMap.xor
  | .shl => c.opcodeMap.shl
  | .shr => c.opcodeMap.shr
  | .addi => c.addiOpcode

/-- The parameter values the spec admits: every opcode byte's tag is its operand count and no two opcodes
share a byte (R64, R68), and the sentinel is in 1..128 (R2, R140). -/
abbrev Config.Admissible (c : Config) : Prop :=
  (∀ o ∈ Op.all, opTag (c.opcode o) = o.operandCount) ∧
  (Op.all.map c.opcode).Nodup ∧
  1 ≤ c.stackSentinel.toNat ∧ c.stackSentinel.toNat ≤ 128

/-! ### The default parameter values -/

/-- PRESUMED (log entry 3), unsafe. The default `OPCODE_MAP` of R64: the LS-8 bytes, which the spec itself
takes from general knowledge (D2, G2). -/
def defaultOpcodeMap : OpcodeMap where
  prn  := 0x47#8
  hlt  := 0x01#8
  mul  := 0xA2#8
  add  := 0xA0#8
  and  := 0xA8#8
  or   := 0xAA#8
  xor  := 0xAB#8
  not  := 0x69#8
  shl  := 0xAC#8
  shr  := 0xAD#8
  mod  := 0xA4#8
  push := 0x45#8
  pop  := 0x46#8
  call := 0x50#8
  ret  := 0x11#8
  cmp  := 0xA7#8
  jeq  := 0x55#8
  jne  := 0x56#8
  jmp  := 0x54#8

/-- The bytes R68 admits for ADDI beside an opcode map: `10xxxxxx`, none of the other 20 opcode bytes. For
every map whose bytes carry their operand counts and are distinct there are 54 of them. -/
def admissibleAddi (m : OpcodeMap) : List Byte :=
  let others := (Op.all.filter (· != .addi)).map
    (Config.opcode ⟨m, 0x00#8, 0x80#8, true⟩)
  ((List.range 64).map fun k => byteOfNat (128 + k)).filter fun b => !others.contains b

/-- The admissible byte that a choice names, under the default map. -/
def addiByte (k : Fin 54) : Byte := (admissibleAddi defaultOpcodeMap).getD k.val 0x80#8

/-- The parameters of the machine after reset: the spec's defaults (R2), and for ADDI's open byte the free
value (log entries 2, 3 and 4). -/
def defaultConfig : Config where
  opcodeMap := defaultOpcodeMap
  addiOpcode := addiByte Config.addiChoice
  stackSentinel := 0x80#8
  underflowFatal := true

/-! ### Decoding -/

/-- Why bytes are not an instruction. -/
inductive DecodeReject where
  /-- There is no opcode byte. -/
  | noOpcode
  /-- Fewer operand bytes follow the opcode byte than its tag says; found before the opcode is looked up
  (R71). -/
  | missingOperand (op : Byte)
  /-- The opcode byte is none of the table's: the decode error of R66. -/
  | undefinedOpcode (op : Byte)
  deriving DecidableEq, Repr

/-- Look an opcode byte up in the table: dispatch on the FULL byte (R65). A byte whose tag is not the
operand count of the table's row is undefined, which only tells apart parameter values that R64 and R68
do not admit (log entry 8). -/
def lookupOp (c : Config) (op : Byte) : Option Op :=
  Op.all.find? fun o => opTag op == o.operandCount && c.opcode o == op

/-- The instruction of a mnemonic and its operand bytes in address order (R61): LDI's register comes
first, ADDI's immediate comes first. -/
def assembleInstr : Op → List Byte → Option Instr
  | .hlt, [] => some .hlt
  | .ret, [] => some .ret
  | .push, [r] => some (.push r)
  | .pop, [r] => some (.pop r)
  | .prn, [r] => some (.prn r)
  | .call, [r] => some (.call r)
  | .jmp, [r] => some (.jmp r)
  | .jeq, [r] => some (.jeq r)
  | .jne, [r] => some (.jne r)
  | .not, [a] => some (.not a)
  | .ldi, [r, imm] => some (.ldi r imm)
  | .add, [a, b] => some (.add a b)
  | .mul, [a, b] => some (.mul a b)
  | .mod, [a, b] => some (.mod a b)
  | .cmp, [a, b] => some (.cmp a b)
  | .and, [a, b] => some (.and a b)
  | .or, [a, b] => some (.or a b)
  | .xor, [a, b] => some (.xor a b)
  | .shl, [a, b] => some (.shl a b)
  | .shr, [a, b] => some (.shr a b)
  | .addi, [imm, r] => some (.addi imm r)
  | _, _ => none

/-- Decode an opcode byte with its operand bytes (R65, R66, R72); `none` is the decode error. -/
def decodeInstr (c : Config) (op : Byte) (operands : List Byte) : Option Instr :=
  match lookupOp c op with
  | some o => assembleInstr o operands
  | none => none

/-- Decode the instruction at the head of a list of bytes and give the bytes after it. Its length is told
by the tag of the first byte alone (R60, R63). -/
def decodeBytes (c : Config) : List Byte → Except DecodeReject (Instr × List Byte)
  | [] => .error .noOpcode
  | op :: rest =>
    if rest.length < opTag op then .error (.missingOperand op)
    else match decodeInstr c op (rest.take (opTag op)) with
      | some i => .ok (i, rest.drop (opTag op))
      | none => .error (.undefinedOpcode op)

/-! ### Encoding -/

/-- The mnemonic of an instruction. -/
def Instr.op : Instr → Op
  | .ldi _ _ => .ldi
  | .prn _ => .prn
  | .hlt => .hlt
  | .mul _ _ => .mul
  | .add _ _ => .add
  | .and _ _ => .and
  | .or _ _ => .or
  | .xor _ _ => .xor
  | .not _ => .not
  | .shl _ _ => .shl
  | .shr _ _ => .shr
  | .mod _ _ => .mod
  | .push _ => .push
  | .pop _ => .pop
  | .call _ => .call
  | .ret => .ret
  | .cmp _ _ => .cmp
  | .jeq _ => .jeq
  | .jne _ => .jne
  | .jmp _ => .jmp
  | .addi _ _ => .addi

/-- The operand bytes of an instruction, in address order (R61). -/
def Instr.operands : Instr → List Byte
  | .ldi r imm => [r, imm]
  | .prn r => [r]
  | .hlt => []
  | .mul a b => [a, b]
  | .add a b => [a, b]
  | .and a b => [a, b]
  | .or a b => [a, b]
  | .xor a b => [a, b]
  | .not a => [a]
  | .shl a b => [a, b]
  | .shr a b => [a, b]
  | .mod a b => [a, b]
  | .push r => [r]
  | .pop r => [r]
  | .call r => [r]
  | .ret => []
  | .cmp a b => [a, b]
  | .jeq r => [r]
  | .jne r => [r]
  | .jmp r => [r]
  | .addi imm r => [imm, r]

/-- The bytes of an instruction, the opcode byte at the lowest address (R44, R60, R61). -/
def encode (c : Config) (i : Instr) : List Byte := c.opcode i.op :: i.operands

/-! ### The opcode table's numbering -/

/-- Byte `k` of a number whose bits 7..0 are the first byte. -/
def wordByte (w k : Nat) : Byte := byteOfNat (w / 256 ^ k)

/-- The four bytes (the longest instruction of R60) of an instruction whose bits are `w`, numbered as
spec/opcode_table.json numbers them; every bit from `nbits` on is 0. -/
def tableBytes (nbits w : Nat) : List Byte :=
  (List.range 4).map (wordByte (w % 2 ^ nbits))

/-- What the decoder reads, under the default parameters, from an instruction whose bits are `w`. -/
def decodeTableWord (nbits w : Nat) : Option Instr :=
  match decodeBytes defaultConfig (tableBytes nbits w) with
  | .ok (i, _) => some i
  | .error _ => none

end Sys2Proof
end

