-- ==== Sys2Proof/Machine/State.lean ====
section
/-! DEFINITION. Everything the spec gives the machine (spec/10_state.md), as plain data, with the reasons a
step can stop and the state after reset (R230 of spec/70_reset_and_hazards.md). -/

namespace Sys2Proof.Machine

/-- A register index that exists: 0..7 (R10). -/
abbrev Reg := Fin 8

/-- The flag register FL: three mutually exclusive values (R15, R16). The numbers of GREATER and LESS are
not architectural (R17), so it is an enumeration. -/
inductive Flag where
  | equal
  | greater
  | less
  deriving DecidableEq, Repr

/-- Which array an out-of-bounds access missed (R201). -/
inductive Space where
  | memory
  | register
  deriving DecidableEq, Repr

/-- The causes a step can raise, each with its info (R200, R201). FileOpenError (code 2) is the loader's
and never raised by the block. -/
inductive Cause where
  /-- The opcode byte is undefined (R66). -/
  | decodeError
  /-- A memory access at an address of 128 or more, or a register operand of 8 or more (R12, R41, R42); the
  index is the address accessed or the operand byte. -/
  | outOfBounds (space : Space) (index : Nat)
  /-- POP or RET on an empty stack under the fatal policy (R143); the value of SP. -/
  | stackUnderflow (sp : Byte)
  /-- MOD with divisor 0 (R119); the index of the divisor's register. -/
  | divideByZero (reg : Reg)
  deriving DecidableEq, Repr

/-- The fault record of R20; the info is inside the cause. -/
structure FaultRecord where
  cause : Cause
  /-- The address of the faulting instruction's opcode byte, or the fetch address. -/
  pc : Byte
  /-- The opcode byte, absent when it could not be fetched. -/
  opcode : Option Byte
  deriving DecidableEq, Repr

/-- STATUS (R19). HALTED and FAULTED are final. -/
inductive Status where
  | running
  | halted
  | faulted (rec : FaultRecord)
  deriving DecidableEq, Repr

/-- What a diagnostic record tells of; the only record the block writes is the non-fatal underflow (R22). -/
inductive DiagKind where
  | stackUnderflow
  deriving DecidableEq, Repr

/-- A record of the diagnostic stream: `{kind, pc, info}` (R22). -/
structure DiagRecord where
  kind : DiagKind
  pc : Byte
  info : Byte
  deriving DecidableEq, Repr

/-- Memory, as the cells that do not hold their reset value 0 (R18, R230). -/
abbrev Memory := List Host.Cell

/-- The state of the machine (spec/10_state.md; R24: there is no other state). -/
structure State where
  /-- R0..R7; R7 is SP (R10, R11). -/
  regs : Vector Byte 8
  /-- The program counter (R13). -/
  pc : Byte
  /-- The flag register (R15). -/
  fl : Flag
  /-- `MEM[0..127]` (R18). -/
  mem : Memory
  /-- RUNNING, HALTED or FAULTED (R19). -/
  status : Status
  /-- The output stream of PRN, first byte first (R21). -/
  out : List Byte
  /-- The diagnostic stream, first record first (R22). -/
  diag : List DiagRecord
  /-- DESIGN CHOICE (log entry 1), safe. The model's own field, not the spec's: the parameters of R2, which
  no step writes. It stands here so that a statement about every state is about every parameter value. -/
  cfg : Config
  deriving DecidableEq, Repr

/-- Why a step is not taken. Raised by `step` alone, and only when STATUS is not RUNNING (R19): safe, for the
spec takes no step there (DESIGN CHOICE, log entry 5). The machine's own faults are NOT here: taking one is a
next state whose STATUS is FAULTED (R204). -/
inductive Fault where
  /-- STATUS is HALTED; raised by `step` (R102, R214). Safe. -/
  | halted
  /-- STATUS is FAULTED, with its record; raised by `step` (R204, R205). Safe. -/
  | faulted (rec : FaultRecord)
  deriving DecidableEq, Repr

/-- Why an instruction has no meaning in the model. No arm of `exec` answers it. -/
inductive Refusal where
  /-- An instruction the model gives no meaning yet, by its mnemonic in the opcode table. Safe. Nobody raises
  it: every instruction has its meaning. -/
  | notModelled (mnemonic : String)
  deriving DecidableEq, Repr

/-- The reset state of R230 under given parameters: registers, PC and every memory cell 0, FL = EQUAL, the
streams empty, STATUS = RUNNING. -/
def State.resetWith (c : Config) : State where
  regs := Vector.replicate 8 0x00#8
  pc := 0x00#8
  fl := .equal
  mem := []
  status := .running
  out := []
  diag := []
  cfg := c

/-- The machine right after reset (R230), with the spec's default parameters (R2). -/
def State.reset : State := State.resetWith defaultConfig

end Sys2Proof.Machine
end

