-- ==== Sys2Proof/Machine/Ops.lean ====
section
/-! DEFINITION. The named operations over registers, memory, PC and the streams (R4 of spec/00_scope.md),
taking a fault (R203, R204 of spec/60_exceptions.md), and the stack primitives (spec/43_stack.md). -/

namespace Sys2Proof.Machine

/-! ### Registers and the program counter -/

/-- `R[i]` (R10). -/
def State.reg (s : State) (i : Reg) : Byte := s.regs.get i

/-- `R[i] <- v` (R10): no register is hardwired. -/
def State.setReg (s : State) (i : Reg) (v : Byte) : State := { s with regs := s.regs.set i.val v i.isLt }

/-- R7, the stack pointer (R11). -/
def spReg : Reg := 7

/-- SP (R11). -/
def State.sp (s : State) : Byte := s.reg spReg

/-- Write SP. -/
def State.setSp (s : State) (v : Byte) : State := s.setReg spReg v

/-- `pc <- target`: the absolute landing of R73, which skips the advance. -/
def State.jump (s : State) (target : Byte) : State := { s with pc := target }

/-- `PC <- PC + 1 + n`, the advance of R72 past an instruction of mnemonic `o`. -/
def State.advance (s : State) (o : Op) : State := s.jump (s.pc + byteOfNat (1 + o.operandCount))

/-- `FL <- X` (R16). -/
def State.setFlag (s : State) (f : Flag) : State := { s with fl := f }

/-- `STATUS <- HALTED` (R102). -/
def State.halt (s : State) : State := { s with status := .halted }

/-- `Emit(v)` (R21). -/
def State.emit (s : State) (v : Byte) : State := { s with out := s.out ++ [v] }

/-- `Report(kind, info)`, with the PC of the instruction being executed (R22). -/
def State.report (s : State) (kind : DiagKind) (info : Byte) : State :=
  { s with diag := s.diag ++ [{ kind := kind, pc := s.pc, info := info }] }

/-! ### Memory -/

/-- What a cell reads as. A cell that is not listed holds its reset value 0 (R230, C7). -/
def Memory.read : Memory → Nat → Byte
  | [], _ => 0x00#8
  | (b, v) :: m, a => if b = a then v else Memory.read m a

/-- Drop the entries of one address. -/
def Memory.erase : Memory → Nat → Memory
  | [], _ => []
  | (b, v) :: m, a => if b = a then Memory.erase m a else (b, v) :: Memory.erase m a

/-- Put an entry before the first one of a higher address. -/
def Memory.insert : Memory → Nat → Byte → Memory
  | [], a, v => [(a, v)]
  | (b, w) :: m, a, v => if a < b then (a, v) :: (b, w) :: m else (b, w) :: Memory.insert m a v

/-- Write one cell, keeping the canonical form: writing 0 removes the entry. -/
def Memory.write (m : Memory) (a : Nat) (v : Byte) : Memory :=
  if v = 0x00#8 then m.erase a else (m.erase a).insert a v

/-- The canonical form from an address on: addresses strictly rising from `lo`, all below `MEM_SIZE`, no
entry equal to what an unlisted cell reads as. -/
def Memory.wfFrom : Nat → Memory → Bool
  | _, [] => true
  | lo, (a, v) :: m => decide (lo ≤ a) && decide (a < 128) && (v != 0x00#8) && Memory.wfFrom (a + 1) m

/-- The canonical form: equal memories are equal data. -/
def Memory.wf (m : Memory) : Bool := Memory.wfFrom 0 m

/-- `MEM_SIZE` (R2, R18). -/
abbrev memSize : Nat := 128

/-- `MEM[a] <- v`, for an address that is known to exist. -/
def State.setCell (s : State) (a : Nat) (v : Byte) : State := { s with mem := s.mem.write a v }

/-- `MemRead(a, 1)` (R41). -/
def State.memRead (s : State) (a : Nat) : Except Cause Byte :=
  if a < memSize then .ok (s.mem.read a) else .error (.outOfBounds .memory a)

/-- `MemWrite(a, 1, v)` (R42). -/
def State.memWrite (s : State) (a : Nat) (v : Byte) : Except Cause State :=
  if a < memSize then .ok (s.setCell a v) else .error (.outOfBounds .memory a)

/-! ### Faults -/

/-- `raise` (R203, R204): from the state BEFORE the instruction, so that every write of the step is
discarded; STATUS becomes FAULTED and nothing else changes. There is no handler and no return (R205). -/
def State.takeFault (s : State) (opcode : Option Byte) (c : Cause) : State :=
  { s with status := .faulted { cause := c, pc := s.pc, opcode := opcode } }

/-- The cause codes of R200. -/
def Cause.code : Cause → Nat
  | .decodeError => 1
  | .outOfBounds _ _ => 3
  | .stackUnderflow _ => 4
  | .divideByZero _ => 5

/-- The code of a STATUS (R200): 0 for HALTED, the cause code for FAULTED, none while RUNNING. -/
def Status.code : Status → Option Nat
  | .running => none
  | .halted => some 0
  | .faulted r => some r.cause.code

/-- `CheckReg(i)` (R12): a register operand is the whole byte, and an index of 8 or more raises. -/
def checkReg (i : Byte) : Except Cause Reg :=
  if h : i.toNat < 8 then .ok ⟨i.toNat, h⟩ else .error (.outOfBounds .register i.toNat)

/-- The end of an instruction's execution (R5, R72, R203): its writes become visible together, or a raised
cause takes the fault, recorded with the instruction's opcode byte (R20). -/
def State.finish (s : State) (o : Op) : Except Cause State → Host.Outcome State Fault Refusal
  | .ok t => .next t
  | .error c => .next (s.takeFault (some (s.cfg.opcode o)) c)

/-! ### The stack primitives -/

/-- SP as a Push decrements it (R141): an SP of 0 is first set to the sentinel, at every Push (R23). -/
def State.pushSp (s : State) : Byte :=
  (if s.sp = 0x00#8 then s.cfg.stackSentinel else s.sp) - 1#8

/-- `Push(v)` (R141). The value is evaluated at the write, in the state whose SP is already decremented, so
an operand that names R7 sees the new SP. -/
def State.push (s : State) (v : State → Byte) : Except Cause State :=
  (s.setSp s.pushSp).memWrite s.pushSp.toNat (v (s.setSp s.pushSp))

/-- What a Pop that did not raise did. -/
inductive Popped where
  /-- The byte was popped into the destination and SP incremented. -/
  | value (s : State)
  /-- The stack was empty under the non-fatal policy: only DIAG changed (R143). -/
  | underflow (s : State)

/-- `Pop(dest)` (R142, R143), `dest` given as the write of the popped byte. SP is re-read for the increment,
after that write, so POP R7 leaves the popped value plus 1. -/
def State.pop (s : State) (dest : State → Byte → State) : Except Cause Popped :=
  if s.sp = s.cfg.stackSentinel then
    if s.cfg.underflowFatal then .error (.stackUnderflow s.sp)
    else .ok (.underflow (s.report .stackUnderflow s.sp))
  else
    match s.memRead s.sp.toNat with
    | .error c => .error c
    | .ok v => .ok (.value ((dest s v).setSp ((dest s v).sp + 1#8)))

end Sys2Proof.Machine
end

