-- ==== Sys2Proof/Machine/Operands.lean ====
section
/-! DEFINITION. The operand forms of R61 (spec/30_encoding.md): how an instruction's register operands are
checked, in operand order and before its body (R12, R72), and how its result ends the step. -/

namespace Sys2Proof.Machine

/-- Format F0: no operand. -/
def formF0 (o : Op) (s : State) (body : Except Cause State) : Host.Outcome State Fault Refusal :=
  s.finish o body

/-- Format F1R: one register. -/
def formR (o : Op) (r : Byte) (s : State) (body : Reg → Except Cause State) :
    Host.Outcome State Fault Refusal :=
  s.finish o (match checkReg r with
    | .error c => .error c
    | .ok d => body d)

/-- Format F2RR: two registers, the first checked first. -/
def formRR (o : Op) (a b : Byte) (s : State) (body : Reg → Reg → Except Cause State) :
    Host.Outcome State Fault Refusal :=
  s.finish o (match checkReg a with
    | .error c => .error c
    | .ok d => match checkReg b with
      | .error c => .error c
      | .ok e => body d e)

/-- Format F2RI: a register, then an immediate, the whole byte unsigned (R62). -/
def formRI (o : Op) (r imm : Byte) (s : State) (body : Reg → Byte → Except Cause State) :
    Host.Outcome State Fault Refusal :=
  formR o r s fun d => body d imm

/-- Format F2IR: an immediate, then a register (R180). -/
def formIR (o : Op) (imm r : Byte) (s : State) (body : Byte → Reg → Except Cause State) :
    Host.Outcome State Fault Refusal :=
  formR o r s fun d => body imm d

end Sys2Proof.Machine
end

