-- ==== Sys2Proof/Machine/Alu.lean ====
section
/-! DEFINITION. The arithmetic/logic unit: MUL, ADD, AND, OR, XOR, NOT, SHL, SHR, MOD (spec/42_alu.md). The
ALU is a pure function of two register values; the engine writes its result back to the first register
(R110). Results are computed on naturals and narrowed `mod 256`. -/

namespace Sys2Proof.Machine

/-! ### The pure functions -/

/-- `(a * b) mod 256` (R111). -/
def aluMul (a b : Byte) : Byte := byteOfNat (a.toNat * b.toNat)

/-- `(a + b) mod 256` (R112, R180). -/
def aluAdd (a b : Byte) : Byte := byteOfNat (a.toNat + b.toNat)

/-- `a & b` (R113). -/
def aluAnd (a b : Byte) : Byte := a &&& b

/-- `a | b` (R114). -/
def aluOr (a b : Byte) : Byte := a ||| b

/-- `a ^ b` (R115). -/
def aluXor (a b : Byte) : Byte := a ^^^ b

/-- `~a`, that is `255 - a` (R116). -/
def aluNot (a : Byte) : Byte := byteOfNat (255 - a.toNat)

/-- `(a * 2^b) mod 256`, the amount the whole byte (R117). -/
def aluShl (a b : Byte) : Byte := byteOfNat (a.toNat * 2 ^ b.toNat)

/-- `floor(a / 2^b)`, the amount the whole byte (R118). -/
def aluShr (a b : Byte) : Byte := byteOfNat (a.toNat / 2 ^ b.toNat)

/-- `a mod b` for a divisor that is not 0 (R119). -/
def aluMod (a b : Byte) : Byte := byteOfNat (a.toNat % b.toNat)

/-! ### The instructions -/

/-- A two-register ALU instruction that cannot raise (R110): both reads before the write, the result to the
first register, nothing else but the advance. -/
def aluBinary (o : Op) (f : Byte → Byte → Byte) (a b : Byte) (s : State) :
    Host.Outcome State Fault Refusal :=
  formRR o a b s fun d e => .ok ((s.setReg d (f (s.reg d) (s.reg e))).advance o)

/-- MUL (R111). -/
def execMul (a b : Byte) (s : State) : Host.Outcome State Fault Refusal :=
  aluBinary .mul aluMul a b s

/-- ADD (R112). -/
def execAdd (a b : Byte) (s : State) : Host.Outcome State Fault Refusal :=
  aluBinary .add aluAdd a b s

/-- AND (R113). -/
def execAnd (a b : Byte) (s : State) : Host.Outcome State Fault Refusal :=
  aluBinary .and aluAnd a b s

/-- OR (R114). -/
def execOr (a b : Byte) (s : State) : Host.Outcome State Fault Refusal :=
  aluBinary .or aluOr a b s

/-- XOR (R115). -/
def execXor (a b : Byte) (s : State) : Host.Outcome State Fault Refusal :=
  aluBinary .xor aluXor a b s

/-- NOT (R116): one operand. -/
def execNot (a : Byte) (s : State) : Host.Outcome State Fault Refusal :=
  formR .not a s fun d => .ok ((s.setReg d (aluNot (s.reg d))).advance .not)

/-- SHL (R117). -/
def execShl (a b : Byte) (s : State) : Host.Outcome State Fault Refusal :=
  aluBinary .shl aluShl a b s

/-- SHR (R118). -/
def execShr (a b : Byte) (s : State) : Host.Outcome State Fault Refusal :=
  aluBinary .shr aluShr a b s

/-- MOD (R119): a divisor of 0 raises DivideByZero with the divisor's register. -/
def execMod (a b : Byte) (s : State) : Host.Outcome State Fault Refusal :=
  formRR .mod a b s fun d e =>
    if s.reg e = 0x00#8 then .error (.divideByZero e)
    else .ok ((s.setReg d (aluMod (s.reg d) (s.reg e))).advance .mod)

end Sys2Proof.Machine
end

