-- ==== Sys2Proof/Machine/Flags.lean ====
section
/-! DEFINITION. The flag computation and the branch conditions of the arbiter (R164 to R167 of
spec/44_control.md). No other instruction touches FL (R15). -/

namespace Sys2Proof.Machine

/-- What CMP sets FL to (R165): an unsigned comparison. -/
def compareFlag (a b : Byte) : Flag :=
  if a = b then .equal else if b.toNat < a.toNat then .greater else .less

/-- JEQ is taken when FL = EQUAL (R166). -/
def jeqTaken (f : Flag) : Bool := decide (f = .equal)

/-- JNE is taken when FL is GREATER or LESS (R167). -/
def jneTaken (f : Flag) : Bool := decide (f ≠ .equal)

end Sys2Proof.Machine
end

