-- ==== Sys2Proof/Machine/Control.lean ====
section
/-! DEFINITION. Control transfer and the branch arbiter: CALL, RET, CMP, JEQ, JNE, JMP (spec/44_control.md).
Every target is an absolute byte (R159); a target of 128 or more is taken, and the next fetch faults. -/

namespace Sys2Proof.Machine

/-- CALL (R160): pushes the address after its operand, then jumps to the register, read after the Push, so
CALL R7 jumps to the decremented SP. -/
def execCall (r : Byte) (s : State) : Host.Outcome State Fault Refusal :=
  formR .call r s fun d =>
    match s.push (fun t => t.pc + 2#8) with
    | .error c => .error c
    | .ok t => .ok (t.jump (t.reg d))

/-- RET (R161): resumes at exactly the popped byte; after a non-fatal underflow PC advances by 1. -/
def execRet (s : State) : Host.Outcome State Fault Refusal :=
  formF0 .ret s
    (match s.pop (fun t v => t.jump v) with
    | .error c => .error c
    | .ok (.value t) => .ok t
    | .ok (.underflow t) => .ok (t.advance .ret))

/-- CMP (R165). -/
def execCmp (a b : Byte) (s : State) : Host.Outcome State Fault Refusal :=
  formRR .cmp a b s fun d e =>
    .ok ((s.setFlag (compareFlag (s.reg d) (s.reg e))).advance .cmp)

/-- A conditional jump: to the register when taken, else past the instruction (R74). -/
def branchTo (o : Op) (taken : Bool) (r : Byte) (s : State) : Host.Outcome State Fault Refusal :=
  formR o r s fun d => .ok (if taken then s.jump (s.reg d) else s.advance o)

/-- JEQ (R166). -/
def execJeq (r : Byte) (s : State) : Host.Outcome State Fault Refusal :=
  branchTo .jeq (jeqTaken s.fl) r s

/-- JNE (R167). -/
def execJne (r : Byte) (s : State) : Host.Outcome State Fault Refusal :=
  branchTo .jne (jneTaken s.fl) r s

/-- JMP (R168). -/
def execJmp (r : Byte) (s : State) : Host.Outcome State Fault Refusal :=
  formR .jmp r s fun d => .ok (s.jump (s.reg d))

end Sys2Proof.Machine
end

