-- ==== Sys2Proof/Machine/DataIo.lean ====
section
/-! DEFINITION. Immediate load, output and halt: LDI, PRN, HLT (spec/41_data_io.md). -/

namespace Sys2Proof.Machine

/-- LDI (R100). -/
def execLdi (r imm : Byte) (s : State) : Host.Outcome State Fault Refusal :=
  formRI .ldi r imm s fun d v => .ok ((s.setReg d v).advance .ldi)

/-- PRN (R101): the block emits the unsigned byte; the decimal text is the host's (R21). -/
def execPrn (r : Byte) (s : State) : Host.Outcome State Fault Refusal :=
  formR .prn r s fun d => .ok ((s.emit (s.reg d)).advance .prn)

/-- HLT (R102): not a control transfer, so PC still advances (R74). -/
def execHlt (s : State) : Host.Outcome State Fault Refusal :=
  formF0 .hlt s (.ok (s.halt.advance .hlt))

end Sys2Proof.Machine
end

