-- ==== Sys2Proof/Machine/Extension.lean ====
section
/-! DEFINITION. The extension instruction ADDI (spec/45_addi.md). -/

namespace Sys2Proof.Machine

/-- ADDI (R180): the ALU's addition with an unsigned immediate; the immediate is the FIRST operand byte. -/
def execAddi (imm r : Byte) (s : State) : Host.Outcome State Fault Refusal :=
  formIR .addi imm r s fun v d => .ok ((s.setReg d (aluAdd (s.reg d) v)).advance .addi)

end Sys2Proof.Machine
end

