-- ==== Sys2Proof/Machine/StackInstrs.lean ====
section
/-! DEFINITION. PUSH and POP (section 2 of spec/43_stack.md), over the stack primitives of Machine/Ops.lean. -/

namespace Sys2Proof.Machine

/-- PUSH (R145): the register is read at the write, so PUSH R7 pushes the decremented SP. -/
def execPush (r : Byte) (s : State) : Host.Outcome State Fault Refusal :=
  formR .push r s fun d =>
    match s.push (fun t => t.reg d) with
    | .error c => .error c
    | .ok t => .ok (t.advance .push)

/-- POP (R146): PC advances also after a non-fatal underflow. -/
def execPop (r : Byte) (s : State) : Host.Outcome State Fault Refusal :=
  formR .pop r s fun d =>
    match s.pop (fun t v => t.setReg d v) with
    | .error c => .error c
    | .ok (.value t) => .ok (t.advance .pop)
    | .ok (.underflow t) => .ok (t.advance .pop)

end Sys2Proof.Machine
end

