-- ==== Sys2Proof/Machine/Fetch.lean ====
section
/-! DEFINITION. Fetching and decoding the instruction at PC (R70, R71, R72 of spec/30_encoding.md), in the
order of the cycle, which is the priority of its faults (R206). -/

namespace Sys2Proof.Machine

/-- A fault of the fetch or the decode: the opcode byte, absent when its own fetch failed (R20), and the
cause. -/
structure FetchFault where
  opcode : Option Byte
  cause : Cause
  deriving DecidableEq, Repr

/-- `n` bytes from address `a` on, in increasing address order; the first address outside Memory raises
(R71). -/
def State.readBytes (s : State) (a : Nat) : Nat → Except Cause (List Byte)
  | 0 => .ok []
  | n + 1 =>
    match s.memRead a with
    | .error c => .error c
    | .ok b =>
      match State.readBytes s (a + 1) n with
      | .error c => .error c
      | .ok bs => .ok (b :: bs)

/-- The instruction at PC, or the fault its fetch or decode raises: the opcode fetch, then the operand bytes
its tag counts, then the lookup (R70, R71, R72). -/
def State.fetch (s : State) : Except FetchFault Instr :=
  match s.memRead s.pc.toNat with
  | .error c => .error { opcode := none, cause := c }
  | .ok op =>
    match s.readBytes (s.pc.toNat + 1) (opTag op) with
    | .error c => .error { opcode := some op, cause := c }
    | .ok operands =>
      match decodeInstr s.cfg op operands with
      | none => .error { opcode := some op, cause := .decodeError }
      | some i => .ok i

/-- Store bytes from address `a` on, as far as Memory goes: used to place an instruction, not by any step. -/
def Memory.place (m : Memory) (a : Nat) : List Byte → Memory
  | [] => m
  | b :: bs => Memory.place (if a < memSize then m.write a b else m) (a + 1) bs

end Sys2Proof.Machine
end

