-- ==== Sys2Proof/Machine/Step.lean ====
section
/-! DEFINITION. One step (R72 of spec/30_encoding.md) and the placing of an instruction where it fetches. -/

namespace Sys2Proof.Machine

/-- One step executes one whole instruction while STATUS is RUNNING (R19, R72). A fault of the fetch or the
decode is taken, a next state (R204). When STATUS is HALTED or FAULTED no step is taken, and the answer says
which (DESIGN CHOICE, log entry 5, safe). -/
def step (s : State) : Host.Outcome State Fault Refusal :=
  match s.status with
  | .halted => .fault .halted
  | .faulted r => .fault (.faulted r)
  | .running =>
    match s.fetch with
    | .error f => .next (s.takeFault f.opcode f.cause)
    | .ok i => exec i s

/-- The instruction whose bits are `w` (numbered as spec/opcode_table.json numbers them), with zeros above
`nbits`, stored at PC. -/
def State.withFetchWord (s : State) (nbits w : Nat) : State :=
  { s with mem := s.mem.place s.pc.toNat (tableBytes nbits w) }

end Sys2Proof.Machine
end

