-- ==== Sys2Proof/Machine/Boot.lean ====
section
/-! DEFINITION. What the host does to the block (R25 of spec/10_state.md): reset and preload (R230 to R233
of spec/70_reset_and_hazards.md). No step does any of it. -/

namespace Sys2Proof.Machine

/-- The host's reset, possible at any time (R25): the state of R230, whatever the state was. The block's
parameters are not state, so they stay (R2). -/
def State.hostReset (s : State) : State := State.resetWith s.cfg

/-- The host's preload (R232): the image from address 0 on, into a block that was just reset; an image of
more than 128 bytes is refused and nothing starts. -/
def State.preload (s : State) (image : List Byte) : Option State :=
  if image.length ≤ memSize then some { s with mem := s.mem.place 0 image } else none

/-- The launch state of a program image (R232, R233): reset, then preload; the engine starts at PC = 0. -/
def launch (c : Config) (image : List Byte) : Option State := (State.resetWith c).preload image

end Sys2Proof.Machine
end

