-- ==== Sys2Proof/Safety.lean ====
section
/-! DEFINITION. What counts as a safe state and a safe run, in the terms claims use. -/

namespace Sys2Proof.Machine

/-- The state invariant every step keeps: Memory is in its canonical form (which keeps every listed cell
inside 0..127), a fault record names the address the PC still holds (R204), and under the fatal policy the
diagnostic stream is empty (R22). -/
structure State.Inv (s : State) : Prop where
  memWf : s.mem.wf = true
  faultPc : ∀ r, s.status = .faulted r → r.pc = s.pc
  diagEmpty : s.cfg.underflowFatal = true → s.diag = []

/-- The engine has stopped with a fault (R204). -/
def State.Faulted (s : State) : Prop := ∃ r, s.status = .faulted r

/-- `n` steps, stopping at the first step that is not taken (R75, R234). -/
def runSteps : Nat → State → Host.Outcome State Fault Refusal
  | 0, s => .next s
  | n + 1, s =>
    match step s with
    | .next t => runSteps n t
    | .fault f => .fault f
    | .refused r => .refused r

/-- The states a run from a launch state passes through (R232, R234). -/
inductive Reachable (c : Config) (image : List Byte) : State → Prop where
  | launched {s : State} (h : launch c image = some s) : Reachable c image s
  | stepped {s t : State} (h : Reachable c image s) (hst : step s = .next t) : Reachable c image t

/-- A safe run of an image: no state it passes through has faulted. -/
def SafeRun (c : Config) (image : List Byte) : Prop := ∀ s, Reachable c image s → ¬ s.Faulted

/-- Two states that differ at most in which of GREATER and LESS the flag register holds: what no program
can observe (R164). -/
structure SameUpToOrder (s t : State) : Prop where
  rest : t = { s with fl := t.fl }
  equalAlike : s.fl = .equal ↔ t.fl = .equal

/-! ### Terms that claims about instructions use -/

/-- The outcome of raising a cause while executing an instruction of mnemonic `o` (R20, R203, R204): nothing
but STATUS differs from the state before the instruction. -/
def raised (s : State) (o : Op) (c : Cause) : Host.Outcome State Fault Refusal :=
  .next { s with status := .faulted { cause := c, pc := s.pc, opcode := some (s.cfg.opcode o) } }

/-- A one-register instruction checks its register operand before anything else (R12). -/
def ChecksRegister (o : Op) (mk : Byte → Instr) : Prop :=
  ∀ (s : State) (r : Byte), 8 ≤ r.toNat → exec (mk r) s = raised s o (.outOfBounds .register r.toNat)

/-- A two-register instruction checks its register operands first, in operand order (R12). -/
def ChecksRegisters (o : Op) (mk : Byte → Byte → Instr) : Prop :=
  ∀ (s : State) (a b : Byte),
    (8 ≤ a.toNat → exec (mk a b) s = raised s o (.outOfBounds .register a.toNat)) ∧
    (a.toNat < 8 → 8 ≤ b.toNat → exec (mk a b) s = raised s o (.outOfBounds .register b.toNat))

/-- The fetch faults of an instruction of mnemonic `o` (R70, R71): its opcode byte is in Memory and an
operand byte is not, so the step raises OutOfBounds(memory, 128); or PC itself is outside. -/
def FetchIsBounded (o : Op) : Prop :=
  ∀ s : State, s.status = .running → s.cfg.Admissible →
    (s.pc.toNat < 128 → s.mem.read s.pc.toNat = s.cfg.opcode o → 128 ≤ s.pc.toNat + o.operandCount →
      step s = raised s o (.outOfBounds .memory 128)) ∧
    (128 ≤ s.pc.toNat →
      step s = .next { s with
        status := .faulted { cause := .outOfBounds .memory s.pc.toNat, pc := s.pc, opcode := none } })

/-- The bytes `bs` decode to `i` whenever the opcode map is the default one of R64. -/
def EncodedAs (bs : List Byte) (i : Instr) : Prop :=
  ∀ c : Config, c.opcodeMap = defaultOpcodeMap → decodeBytes c bs = .ok (i, [])

/-- The whole rule of a two-register ALU instruction that cannot raise by itself: its encoding, its result
(computed on naturals and reduced modulo 256) with everything it leaves alone, its register checks and its
fetch faults. -/
def BinaryAluRule (o : Op) (mk : Byte → Byte → Instr) (code : Byte) (f : Nat → Nat → Nat) : Prop :=
  (∀ a b : Byte, EncodedAs [code, a, b] (mk a b)) ∧
  (∀ (s : State) (a b : Byte) (ha : a.toNat < 8) (hb : b.toNat < 8),
    exec (mk a b) s = .next { s with
      regs := s.regs.set a.toNat
        (BitVec.ofNat 8 (f s.regs[a.toNat].toNat s.regs[b.toNat].toNat))
      pc := s.pc + 3#8 }) ∧
  ChecksRegisters o mk ∧ FetchIsBounded o

/-- A byte that is no row of the opcode table (R66). -/
def undefinedByte (c : Config) (b : Byte) : Bool := Op.all.all fun o => c.opcode o != b

/-- The register an instruction names as its destination: LDI, the ALU and ADDI (R100, R110, R180). The
stack, control, compare and output instructions have a frame of their own. -/
def destReg : Instr → Option Byte
  | .ldi r _ => some r
  | .mul a _ => some a
  | .add a _ => some a
  | .and a _ => some a
  | .or a _ => some a
  | .xor a _ => some a
  | .not a => some a
  | .shl a _ => some a
  | .shr a _ => some a
  | .mod a _ => some a
  | .addi _ r => some r
  | .prn _ => none
  | .hlt => none
  | .push _ => none
  | .pop _ => none
  | .call _ => none
  | .ret => none
  | .cmp _ _ => none
  | .jeq _ => none
  | .jne _ => none
  | .jmp _ => none

/-- The instructions that set the PC themselves (R74). -/
def setsPc : Op → Bool
  | .call => true
  | .ret => true
  | .jmp => true
  | .jeq => true
  | .jne => true
  | .hlt => false
  | .push => false
  | .pop => false
  | .prn => false
  | .not => false
  | .ldi => false
  | .add => false
  | .mul => false
  | .mod => false
  | .cmp => false
  | .and => false
  | .or => false
  | .xor => false
  | .shl => false
  | .shr => false
  | .addi => false

/-- `n` executions of PUSH of one register, one after another. -/
def pushes (r : Byte) : Nat → State → Host.Outcome State Fault Refusal
  | 0, s => .next s
  | n + 1, s =>
    match pushes r n s with
    | .next t => exec (.push r) t
    | .fault f => .fault f
    | .refused f => .refused f

end Sys2Proof.Machine
end

