-- ==== Sys2Proof/Certificates/Slice0/Obligations.lean ====
section
/-! DEFINITION. The statements about the machine, each with the rule or the section of spec/ it formalises.
Every statement about a state is about every value of the parameters (the field cfg, log entry 1); the
opcode bytes it names are those of the default map (R64, log entry 3). -/

open Sys2Proof Sys2Proof.Machine

/-! ### Encoding and decoding (spec/30_encoding.md) -/

/-- Decoding the bytes of any instruction gives it back with every operand at every value, and the bytes
after it. R60, R61, R65. -/
def Obligations.DecodeOfEncodeIsTheInstruction : Prop :=
  ∀ c : Config, c.Admissible → ∀ (i : Instr) (rest : List Byte),
    decodeBytes c (encode c i ++ rest) = .ok (i, rest)

/-- Bytes that decode are exactly the encoding of the instruction read, so no two byte strings mean the same
instruction and no byte is dropped. R62, R65, R67. -/
def Obligations.DecodedBytesAreTheEncoding : Prop :=
  ∀ (c : Config) (bs rest : List Byte) (i : Instr),
    decodeBytes c bs = .ok (i, rest) → bs = encode c i ++ rest

/-- R66: for every admissible ADDI byte 235 byte values are undefined, every byte with tag 11 among them and,
under the default map, 0x00; a step that decodes one, its operand bytes fetched, raises DecodeError with the
address and the byte, code 1, and changes nothing else. -/
def Obligations.UndefinedBytesRaiseDecodeError : Prop :=
  (∀ c : Config, c.Admissible →
    ((List.range 256).filter fun n => undefinedByte c (BitVec.ofNat 8 n)).length = 235 ∧
    (∀ b : Byte, b.toNat / 64 = 3 → undefinedByte c b = true) ∧
    (c.opcodeMap = defaultOpcodeMap → undefinedByte c 0x00#8 = true)) ∧
  (∀ (s : State) (op : Byte), s.status = .running → s.mem.read s.pc.toNat = op →
    s.pc.toNat + op.toNat / 64 < 128 → undefinedByte s.cfg op = true →
    step s = .next { s with status := .faulted { cause := .decodeError, pc := s.pc, opcode := some op } }) ∧
  Cause.code .decodeError = 1

/-- Dispatch is on the full byte (R65): with its operand bytes, a byte decodes to an instruction exactly when
it is that instruction's own byte; and under the default map a byte that shares only the low six bits of one
of the 20 fixed opcodes, and is not ADDI's byte, is undefined (C3). -/
def Obligations.DispatchIsOnTheFullByte : Prop :=
  ∀ c : Config, c.Admissible →
    (∀ (op : Byte) (operands : List Byte) (i : Instr),
      decodeInstr c op operands = some i ↔ op = c.opcode i.op ∧ operands = i.operands) ∧
    (c.opcodeMap = defaultOpcodeMap → ∀ (b : Byte) (o : Op), o ≠ .addi →
      b.toNat % 64 = (c.opcode o).toNat % 64 → b ≠ c.opcode o → b ≠ c.addiOpcode →
      undefinedByte c b = true)

/-- The tag of the first byte alone tells the length (R60, R63): an instruction that decodes took 1 + op[7:6]
bytes, at most 3, and the lack of an operand byte is found for every opcode byte, defined or not. -/
def Obligations.LengthIsToldByTheTag : Prop :=
  ∀ (c : Config) (op : Byte) (tail : List Byte),
    (∀ (i : Instr) (rest : List Byte), decodeBytes c (op :: tail) = .ok (i, rest) →
      (op :: tail).length = 1 + op.toNat / 64 + rest.length ∧ op.toNat / 64 = i.op.operandCount ∧
      op.toNat / 64 ≤ 2) ∧
    (decodeBytes c (op :: tail) = .error (.missingOperand op) ↔ tail.length < op.toNat / 64)

/-- A few words written out from R64 and R180 decode to the instructions they stand for: one of every family,
the operands distinct so that a swap would show. -/
def Obligations.SpecWordsDecode : Prop :=
  EncodedAs [0x82#8, 0x03#8, 0xFF#8] (.ldi 0x03#8 0xFF#8) ∧
  EncodedAs [0x47#8, 0x02#8] (.prn 0x02#8) ∧
  EncodedAs [0x01#8] .hlt ∧
  EncodedAs [0xA4#8, 0x01#8, 0x02#8] (.mod 0x01#8 0x02#8) ∧
  EncodedAs [0x45#8, 0x07#8] (.push 0x07#8) ∧
  EncodedAs [0x50#8, 0x01#8] (.call 0x01#8) ∧
  EncodedAs [0x11#8] .ret ∧
  EncodedAs [0xA7#8, 0x00#8, 0x01#8] (.cmp 0x00#8 0x01#8) ∧
  (∀ c : Config, c.Admissible →
    decodeBytes c [c.addiOpcode, 0x0A#8, 0x02#8] = .ok (.addi 0x0A#8 0x02#8, []))

/-! ### The cycle (section 3 of spec/30_encoding.md) and faults (spec/60_exceptions.md) -/

/-- When the bytes at PC are an instruction's, inside Memory, a step of a RUNNING engine is that
instruction's execution, which does the advance itself (R72). -/
def Obligations.StepRunsTheDecodedInstruction : Prop :=
  ∀ (s : State) (i : Instr), s.status = .running → s.cfg.Admissible →
    (∀ (k : Nat) (h : k < (encode s.cfg i).length),
      s.pc.toNat + k < 128 ∧ s.mem.read (s.pc.toNat + k) = (encode s.cfg i)[k]) →
    step s = exec i s

/-- The two fetch faults come before the decode (R70, R71, R206, with decision D14): a PC of 128 or more has
no opcode byte to record; an operand byte past address 127 reports 128 whether or not the opcode byte is
defined. -/
def Obligations.FetchFaultsComeBeforeDecode : Prop :=
  ∀ s : State, s.status = .running →
    (128 ≤ s.pc.toNat →
      step s = .next { s with
        status := .faulted { cause := .outOfBounds .memory s.pc.toNat, pc := s.pc, opcode := none } }) ∧
    (∀ op : Byte, s.pc.toNat < 128 → s.mem.read s.pc.toNat = op → 128 ≤ s.pc.toNat + op.toNat / 64 →
      step s = .next { s with
        status := .faulted { cause := .outOfBounds .memory 128, pc := s.pc, opcode := some op } })

/-- Every register operand is checked before the body, in operand order, used or not (R12, decision D6): the
first one of 8 or more raises, before DivideByZero, StackUnderflow and a data access (R206). -/
def Obligations.RegisterOperandsAreCheckedFirst : Prop :=
  ∀ (i : Instr) (s : State) (r : Byte), i.regOperands.find? (fun r => decide (8 ≤ r.toNat)) = some r →
    exec i s = raised s i.op (.outOfBounds .register r.toNat)

/-- The engine steps exactly while STATUS is RUNNING, and then it always has a next state: no instruction,
operand or byte stops it otherwise (R19, R205, R214, R234). That the model's step answers the fault outcomes
halted and faulted when it takes no step is the model's choice, log entry 5. -/
def Obligations.StepsExactlyWhileRunning : Prop :=
  ∀ s : State,
    ((∃ t, step s = .next t) ↔ s.status = .running) ∧
    (s.status = .halted → step s = .fault .halted) ∧
    (∀ r, s.status = .faulted r → step s = .fault (.faulted r))

/-- Faults are precise (R5, R203, R204, decision D13): a step that ends FAULTED leaves everything but STATUS
as it was before the instruction, and its record names PC and the opcode byte, absent when PC is outside
Memory (R20). -/
def Obligations.FaultsArePrecise : Prop :=
  ∀ (s t : State) (r : FaultRecord), step s = .next t → t.status = .faulted r →
    t = { s with status := .faulted r } ∧ r.pc = s.pc ∧
    r.opcode = if s.pc.toNat < 128 then some (s.mem.read s.pc.toNat) else none

/-- STATUS leaves RUNNING only by a HLT, which every fetched HLT does, or by a fault (R19, R102, R209). -/
def Obligations.OnlyHltHalts : Prop :=
  ∀ s t : State, step s = .next t →
    (t.status = .halted ↔ s.fetch = .ok .hlt) ∧
    (t.status ≠ .halted → t.status = .running ∨ ∃ r, t.status = .faulted r)

/-- Which instruction raises which cause, with its info (the tables of R201): an instruction that was fetched
and decoded never raises DecodeError. -/
def Obligations.CausesBelongToTheirInstructions : Prop :=
  ∀ (i : Instr) (s t : State) (r : FaultRecord), s.status = .running → exec i s = .next t →
    t.status = .faulted r →
    match r.cause with
    | .decodeError => False
    | .outOfBounds .register k => ∃ b ∈ i.regOperands, 8 ≤ b.toNat ∧ k = b.toNat
    | .outOfBounds .memory k => 128 ≤ k ∧
        (((i.op = .push ∨ i.op = .call) ∧
            k = ((if s.regs[7] = 0#8 then s.cfg.stackSentinel else s.regs[7]) - 1#8).toNat) ∨
         ((i.op = .pop ∨ i.op = .ret) ∧ k = s.regs[7].toNat))
    | .stackUnderflow v => (i.op = .pop ∨ i.op = .ret) ∧ s.cfg.underflowFatal = true ∧
        v = s.regs[7] ∧ s.regs[7] = s.cfg.stackSentinel
    | .divideByZero d => ∃ a b, i = .mod a b ∧ b.toNat = d.val ∧ s.regs[d.val] = 0#8

/-! ### What holds of the whole machine -/

/-- Every step keeps the state invariant: canonical memory, a fault record that names the PC, and an empty
diagnostic stream under the fatal policy (R22, R42, R204, R207). -/
def Obligations.InvariantIsKeptByEveryStep : Prop :=
  ∀ s t : State, s.Inv → step s = .next t → t.Inv

/-- The invariant holds after reset, under any parameters, and in every launch state (R230, R232). -/
def Obligations.InvariantHoldsAtReset : Prop :=
  (∀ c : Config, (State.resetWith c).Inv) ∧ State.reset.Inv ∧
  (∀ (c : Config) (image : List Byte) (s : State), launch c image = some s → s.Inv)

/-- No step changes a parameter: they are configuration, not state (R2, R24). -/
def Obligations.ParametersNeverChange : Prop :=
  ∀ s t : State, step s = .next t → t.cfg = s.cfg

/-- FL is written by CMP alone (R15): a step after which FL differs executed a CMP. -/
def Obligations.OnlyCmpWritesTheFlag : Prop :=
  ∀ s t : State, step s = .next t → t.fl ≠ s.fl → ∃ a b, s.fetch = .ok (.cmp a b)

/-- OUT grows by PRN alone, by the one byte of its register, and nothing is ever taken from it (R21, R101). -/
def Obligations.OnlyPrnEmits : Prop :=
  ∀ s t : State, step s = .next t →
    t.out = s.out ∨
    ∃ (r : Byte) (h : r.toNat < 8), s.fetch = .ok (.prn r) ∧ t.out = s.out ++ [s.regs[r.toNat]]

/-- Memory is written by PUSH and CALL alone, and only in the cell at the decremented SP (R43): every other
instruction, and every fault, leaves every cell as it was. -/
def Obligations.OnlyPushAndCallStore : Prop :=
  ∀ (s t : State) (a : Nat), step s = .next t → t.mem.read a ≠ s.mem.read a →
    a = s.pushSp.toNat ∧ a < 128 ∧ ∃ r, s.fetch = .ok (.push r) ∨ s.fetch = .ok (.call r)

/-- DIAG is written by a POP or RET on an empty stack under the non-fatal policy alone (R22, R143, R207). -/
def Obligations.OnlyNonFatalUnderflowReports : Prop :=
  ∀ s t : State, step s = .next t →
    t.diag = s.diag ∨
    (s.cfg.underflowFatal = false ∧ s.regs[7] = s.cfg.stackSentinel ∧
      (s.fetch = .ok .ret ∨ ∃ r, s.fetch = .ok (.pop r)) ∧
      t.diag = s.diag ++ [{ kind := .stackUnderflow, pc := s.pc, info := s.regs[7] }])

/-- A program cannot observe which of GREATER and LESS a CMP wrote (R164): over any number of steps, two
states that differ at most in that stay alike in everything else, and stop alike. -/
def Obligations.FlagOrderIsUnobservable : Prop :=
  ∀ (n : Nat) (s u : State), SameUpToOrder s u →
    (∀ t, runSteps n s = .next t → ∃ v, runSteps n u = .next v ∧ SameUpToOrder t v) ∧
    (∀ f, runSteps n s = .fault f → runSteps n u = .fault f)

/-- A program cannot observe the streams (R21, R22, R213): a state with more in OUT and DIAG takes the same
step, and what was there stays in front. -/
def Obligations.StreamsAreUnobservable : Prop :=
  ∀ (s t : State) (o : List Byte) (d : List DiagRecord), step s = .next t →
    step { s with out := o ++ s.out, diag := d ++ s.diag } =
      .next { t with out := o ++ t.out, diag := d ++ t.diag }

/-- The advance of R72 and R74 without wrap (R14): a step that neither faults nor runs one of the five
instructions that set the PC moves it past the instruction's 1 + n bytes, HLT's too (decision D19). -/
def Obligations.PcAdvancesPastTheInstruction : Prop :=
  ∀ (s t : State) (i : Instr), step s = .next t → s.fetch = .ok i → ¬ t.Faulted →
    setsPc i.op = false → t.pc.toNat = s.pc.toNat + 1 + i.op.operandCount

/-! ### Immediate load, output, halt (spec/41_data_io.md) -/

/-- R100, LDI: the immediate, unchanged, into the register; PC + 3; nothing else. LDI R7,0 makes the next
PUSH or CALL start from the sentinel again. -/
def Obligations.LdiLoadsTheImmediate : Prop :=
  (∀ r imm : Byte, EncodedAs [0x82#8, r, imm] (.ldi r imm)) ∧
  (∀ (s : State) (r imm : Byte) (h : r.toNat < 8),
    exec (.ldi r imm) s = .next { s with regs := s.regs.set r.toNat imm, pc := s.pc + 3#8 }) ∧
  (∀ s : State, ∃ t, exec (.ldi 0x07#8 0x00#8) s = .next t ∧
    t.pushSp = s.cfg.stackSentinel - 1#8) ∧
  (∀ imm : Byte, ChecksRegister .ldi (fun r => .ldi r imm)) ∧ FetchIsBounded .ldi

/-- R101, PRN: the register's byte is appended to OUT; PC + 2; no register, flag or cell changes. -/
def Obligations.PrnEmitsTheByte : Prop :=
  (∀ r : Byte, EncodedAs [0x47#8, r] (.prn r)) ∧
  (∀ (s : State) (r : Byte) (h : r.toNat < 8),
    exec (.prn r) s = .next { s with out := s.out ++ [s.regs[r.toNat]], pc := s.pc + 2#8 }) ∧
  ChecksRegister .prn .prn ∧ FetchIsBounded .prn

/-- HLT (R102): STATUS becomes HALTED, PC still advances by 1 (decision D19), nothing else changes, and no
further step is taken; the model answers the fault outcome halted there (log entry 5). -/
def Obligations.HltHalts : Prop :=
  ∀ s : State,
    exec .hlt s = .next { s with status := .halted, pc := s.pc + 1#8 } ∧
    (∀ t, exec .hlt s = .next t → step t = .fault .halted ∧ t.status.code = some 0)

/-! ### The ALU (spec/42_alu.md) -/

/-- R111 and R112, MUL and ADD: product and sum modulo 256 into the first register, both read before the
write; the high bits and the carry are lost; nothing else changes but PC + 3. -/
def Obligations.MulAndAddWrap : Prop :=
  BinaryAluRule .mul .mul 0xA2#8 (fun x y => x * y) ∧
  BinaryAluRule .add .add 0xA0#8 (fun x y => x + y)

/-- R113, R114, R115: AND, OR and XOR, bit by bit. -/
def Obligations.BitwiseOperations : Prop :=
  BinaryAluRule .and .and 0xA8#8 (fun x y => x &&& y) ∧
  BinaryAluRule .or .or 0xAA#8 (fun x y => x ||| y) ∧
  BinaryAluRule .xor .xor 0xAB#8 (fun x y => x ^^^ y)

/-- R116, NOT: 255 minus the register, two bytes long. -/
def Obligations.NotComplements : Prop :=
  (∀ a : Byte, EncodedAs [0x69#8, a] (.not a)) ∧
  (∀ (s : State) (a : Byte) (h : a.toNat < 8),
    exec (.not a) s = .next { s with
      regs := s.regs.set a.toNat (BitVec.ofNat 8 (255 - s.regs[a.toNat].toNat)), pc := s.pc + 2#8 }) ∧
  ChecksRegister .not .not ∧ FetchIsBounded .not

/-- SHL and SHR (R117, R118): the mathematical shift by the whole register, reduced modulo 256; that an amount
of 8 or more gives 0 is the spec's decision D12. -/
def Obligations.ShiftsUseTheWholeAmount : Prop :=
  BinaryAluRule .shl .shl 0xAC#8 (fun x y => x * 2 ^ y) ∧
  BinaryAluRule .shr .shr 0xAD#8 (fun x y => x / 2 ^ y) ∧
  (∀ (s t : State) (a b : Byte) (ha : a.toNat < 8) (hb : b.toNat < 8), 8 ≤ s.regs[b.toNat].toNat →
    exec (.shl a b) s = .next t ∨ exec (.shr a b) s = .next t → t.regs[a.toNat] = 0#8)

/-- MOD (R119): the unsigned remainder; a divisor of 0 raises DivideByZero with the divisor's register index,
after the register checks (decisions D11, D14). -/
def Obligations.ModGivesTheRemainder : Prop :=
  (∀ a b : Byte, EncodedAs [0xA4#8, a, b] (.mod a b)) ∧
  (∀ (s : State) (a b : Byte) (ha : a.toNat < 8) (hb : b.toNat < 8),
    exec (.mod a b) s =
      if s.regs[b.toNat] = 0#8 then raised s .mod (.divideByZero ⟨b.toNat, hb⟩)
      else .next { s with
        regs := s.regs.set a.toNat
          (BitVec.ofNat 8 (s.regs[a.toNat].toNat % s.regs[b.toNat].toNat))
        pc := s.pc + 3#8 }) ∧
  ChecksRegisters .mod .mod ∧ FetchIsBounded .mod

/-- ADDI (R180): register plus unsigned immediate modulo 256, the immediate the FIRST operand byte, under every
admissible ADDI byte (decision D3). -/
def Obligations.AddiAddsTheImmediate : Prop :=
  (∀ c : Config, c.Admissible → ∀ imm r : Byte,
    decodeBytes c [c.addiOpcode, imm, r] = .ok (.addi imm r, [])) ∧
  (∀ (s : State) (imm r : Byte) (h : r.toNat < 8),
    exec (.addi imm r) s = .next { s with
      regs := s.regs.set r.toNat (BitVec.ofNat 8 (s.regs[r.toNat].toNat + imm.toNat))
      pc := s.pc + 3#8 }) ∧
  (∀ imm : Byte, ChecksRegister .addi (fun r => .addi imm r)) ∧ FetchIsBounded .addi

/-! ### The stack (spec/43_stack.md) -/

/-- PUSH (R141, R145): SP, set to the sentinel first if it is 0 (decision D9), moves down by one, and the
register, read after that (decision D10), is stored there; where the new SP is 128 or more the instruction
raises and SP stays. -/
def Obligations.PushStoresBelowSp : Prop :=
  ∀ (s : State) (r p : Byte) (h : r.toNat < 8),
    p = (if s.regs[7] = 0#8 then s.cfg.stackSentinel else s.regs[7]) - 1#8 →
    exec (.push r) s =
      if p.toNat < 128 then
        .next { s with
          regs := s.regs.set 7 p
          mem := s.mem.write p.toNat (if r.toNat = 7 then p else s.regs[r.toNat])
          pc := s.pc + 2#8 }
      else raised s .push (.outOfBounds .memory p.toNat)

/-- POP (R142, R146) on a stack that is not empty: the byte at SP into the register, then SP, re-read, plus 1,
so POP R7 leaves the popped byte plus 1 (decision D10); the cell is not cleared; an SP of 0 is no underflow
(decision D9); an SP of 128 or more, not the sentinel, raises. -/
def Obligations.PopLoadsFromSp : Prop :=
  ∀ (s : State) (r : Byte) (h : r.toNat < 8), s.regs[7] ≠ s.cfg.stackSentinel →
    exec (.pop r) s =
      if s.regs[7].toNat < 128 then
        .next { s with
          regs := (s.regs.set r.toNat (s.mem.read s.regs[7].toNat)).set 7
            ((if r.toNat = 7 then s.mem.read s.regs[7].toNat else s.regs[7]) + 1#8)
          pc := s.pc + 2#8 }
      else raised s .pop (.outOfBounds .memory s.regs[7].toNat)

/-- RET (R161) on a stack that is not empty: PC becomes exactly the popped byte (decision D18), SP goes up by
one; an SP of 128 or more, not the sentinel, raises. -/
def Obligations.RetResumesAtThePoppedByte : Prop :=
  ∀ s : State, s.regs[7] ≠ s.cfg.stackSentinel →
    exec .ret s =
      if s.regs[7].toNat < 128 then
        .next { s with
          regs := s.regs.set 7 (s.regs[7] + 1#8)
          pc := s.mem.read s.regs[7].toNat }
      else raised s .ret (.outOfBounds .memory s.regs[7].toNat)

/-- POP and RET on an empty stack, under both policies (R143, decision D8): fatal, StackUnderflow with the
value of SP; not fatal, a DIAG record, and the destination and SP unchanged while PC advances. -/
def Obligations.EmptyStackFollowsThePolicy : Prop :=
  ∀ s : State, s.regs[7] = s.cfg.stackSentinel →
    (s.cfg.underflowFatal = true →
      exec .ret s = raised s .ret (.stackUnderflow s.regs[7]) ∧
      ∀ r : Byte, r.toNat < 8 → exec (.pop r) s = raised s .pop (.stackUnderflow s.regs[7])) ∧
    (s.cfg.underflowFatal = false →
      exec .ret s = .next { s with
        diag := s.diag ++ [{ kind := .stackUnderflow, pc := s.pc, info := s.regs[7] }]
        pc := s.pc + 1#8 } ∧
      ∀ r : Byte, r.toNat < 8 → exec (.pop r) s = .next { s with
        diag := s.diag ++ [{ kind := .stackUnderflow, pc := s.pc, info := s.regs[7] }]
        pc := s.pc + 2#8 })

/-- PUSH then POP (R147, C4): the value comes back and so does SP, for an initialised SP whose push does not
land on the sentinel; from SP = 0 the value comes back and SP ends at the sentinel. -/
def Obligations.PushThenPopRoundTrips : Prop :=
  ∀ (s : State) (r r' : Byte) (h : r.toNat < 7) (h' : r'.toNat < 7),
    (1 ≤ s.regs[7].toNat → s.regs[7].toNat ≤ 128 → s.regs[7] - 1#8 ≠ s.cfg.stackSentinel →
      ∃ t u, exec (.push r) s = .next t ∧ exec (.pop r') t = .next u ∧
        u.regs[r'.toNat] = s.regs[r.toNat] ∧ u.regs[7] = s.regs[7]) ∧
    (s.regs[7] = 0#8 → s.cfg.Admissible →
      ∃ t u, exec (.push r) s = .next t ∧ exec (.pop r') t = .next u ∧
        u.regs[r'.toNat] = s.regs[r.toNat] ∧ u.regs[7] = s.cfg.stackSentinel)

/-- Pushes in a row (R144): from SP = S, the sentinel, n pushes of a register fill S - n .. S - 1 with it and
leave SP = S - n, for n up to S; one more starts again at the top and leaves SP = S - 1. -/
def Obligations.PushesFillDownwardAndWrap : Prop :=
  ∀ (s : State) (r : Byte) (h : r.toNat < 7), s.cfg.Admissible → s.regs[7] = s.cfg.stackSentinel →
    (∀ n, n ≤ s.cfg.stackSentinel.toNat →
      ∃ t, pushes r n s = .next t ∧ t.regs[7].toNat = s.cfg.stackSentinel.toNat - n ∧
        ∀ a, t.mem.read a =
          if s.cfg.stackSentinel.toNat - n ≤ a ∧ a < s.cfg.stackSentinel.toNat then s.regs[r.toNat]
          else s.mem.read a) ∧
    (∃ t, pushes r (s.cfg.stackSentinel.toNat + 1) s = .next t ∧
      t.regs[7] = s.cfg.stackSentinel - 1#8)

/-! ### Control transfer and the branch arbiter (spec/44_control.md) -/

/-- CALL (R160): PC + 2 is pushed, then PC becomes the register, read after the push, so CALL R7 jumps to the
decremented SP (decision D10). -/
def Obligations.CallPushesTheReturnAddress : Prop :=
  ∀ (s : State) (r p : Byte) (h : r.toNat < 8),
    p = (if s.regs[7] = 0#8 then s.cfg.stackSentinel else s.regs[7]) - 1#8 →
    exec (.call r) s =
      if p.toNat < 128 then
        .next { s with
          regs := s.regs.set 7 p
          mem := s.mem.write p.toNat (s.pc + 2#8)
          pc := if r.toNat = 7 then p else s.regs[r.toNat] }
      else raised s .call (.outOfBounds .memory p.toNat)

/-- CALL then RET (R162, C4): a subroutine that leaves SP and the cell it names as it found them returns to
PC + 2, and SP is back; from SP = 0 it ends at the sentinel. -/
def Obligations.CallThenRetRoundTrips : Prop :=
  ∀ (s : State) (r : Byte), r.toNat < 8 →
    (1 ≤ s.regs[7].toNat ∧ s.regs[7].toNat ≤ 128 ∧ s.regs[7] - 1#8 ≠ s.cfg.stackSentinel) ∨
      (s.regs[7] = 0#8 ∧ s.cfg.Admissible) →
    ∃ t, exec (.call r) s = .next t ∧
      ∀ u : State, u.cfg = t.cfg → u.regs[7] = t.regs[7] →
        u.mem.read t.regs[7].toNat = t.mem.read t.regs[7].toNat →
        ∃ v, exec .ret u = .next v ∧ v.pc = s.pc + 2#8 ∧
          v.regs[7] = if s.regs[7] = 0#8 then s.cfg.stackSentinel else s.regs[7]

/-- R165, CMP: FL is EQUAL, GREATER or LESS by the unsigned comparison; no register changes; PC + 3. -/
def Obligations.CmpSetsTheFlag : Prop :=
  (∀ a b : Byte, EncodedAs [0xA7#8, a, b] (.cmp a b)) ∧
  (∀ (s : State) (a b : Byte) (ha : a.toNat < 8) (hb : b.toNat < 8),
    exec (.cmp a b) s = .next { s with
      fl := if s.regs[a.toNat] = s.regs[b.toNat] then .equal
        else if s.regs[a.toNat].toNat > s.regs[b.toNat].toNat then .greater else .less
      pc := s.pc + 3#8 }) ∧
  ChecksRegisters .cmp .cmp ∧ FetchIsBounded .cmp

/-- R166 and R167, JEQ and JNE: taken to the register exactly when FL is, or is not, EQUAL; else PC + 2; the
register is checked either way; after reset a JEQ is taken and a JNE is not. -/
def Obligations.JeqAndJneFollowTheFlag : Prop :=
  (∀ r : Byte, EncodedAs [0x55#8, r] (.jeq r) ∧ EncodedAs [0x56#8, r] (.jne r)) ∧
  (∀ (s : State) (r : Byte) (h : r.toNat < 8),
    exec (.jeq r) s =
      .next { s with pc := if s.fl = .equal then s.regs[r.toNat] else s.pc + 2#8 } ∧
    exec (.jne r) s =
      .next { s with pc := if s.fl = .equal then s.pc + 2#8 else s.regs[r.toNat] }) ∧
  (∀ c : Config, (State.resetWith c).fl = .equal) ∧
  ChecksRegister .jeq .jeq ∧ ChecksRegister .jne .jne ∧ FetchIsBounded .jeq ∧ FetchIsBounded .jne

/-- R168, JMP: PC becomes the register, any byte; a JMP to its own address changes nothing, so it loops for
ever. -/
def Obligations.JmpJumps : Prop :=
  (∀ r : Byte, EncodedAs [0x54#8, r] (.jmp r)) ∧
  (∀ (s : State) (r : Byte) (h : r.toNat < 8),
    exec (.jmp r) s = .next { s with pc := s.regs[r.toNat] } ∧
    (s.regs[r.toNat] = s.pc → exec (.jmp r) s = .next s)) ∧
  ChecksRegister .jmp .jmp ∧ FetchIsBounded .jmp

/-! ### Frames -/

/-- LDI, the nine ALU instructions and ADDI change no register but their destination, no flag, no cell of
memory, no stream and no parameter; STATUS changes only to FAULTED (R100, R110, R180). -/
def Obligations.RegisterFormsFrame : Prop :=
  ∀ (i : Instr) (d : Byte) (s t : State), destReg i = some d → exec i s = .next t →
    (∀ j : Reg, j.val ≠ d.toNat → t.reg j = s.reg j) ∧ t.fl = s.fl ∧
    (∀ a, t.mem.read a = s.mem.read a) ∧ t.out = s.out ∧ t.diag = s.diag ∧ t.cfg = s.cfg ∧
    (t.status = s.status ∨ t.Faulted)

/-- PUSH and CALL change no register but R7, no flag, no stream and no cell but the one at the decremented SP
(R141, R145, R160). -/
def Obligations.StoringFormsFrame : Prop :=
  ∀ (i : Instr) (r : Byte) (s t : State), i = .push r ∨ i = .call r → exec i s = .next t →
    (∀ j : Reg, j.val ≠ 7 → t.reg j = s.reg j) ∧ t.fl = s.fl ∧
    (∀ a, a ≠ s.pushSp.toNat → t.mem.read a = s.mem.read a) ∧
    t.out = s.out ∧ t.diag = s.diag ∧ t.cfg = s.cfg ∧ (t.status = s.status ∨ t.Faulted)

/-- POP and RET change no register but R7 and, for POP, its destination, no flag, no cell of memory and not
OUT; DIAG changes only on an empty stack under the non-fatal policy, where no register changes at all
(R142, R143, R146, R161). -/
def Obligations.PoppingFormsFrame : Prop :=
  ∀ (i : Instr) (s t : State), i = .ret ∨ (∃ r, i = .pop r) → exec i s = .next t →
    (∀ j : Reg, j.val ≠ 7 → (∀ r, i = .pop r → j.val ≠ r.toNat) → t.reg j = s.reg j) ∧
    t.fl = s.fl ∧ (∀ a, t.mem.read a = s.mem.read a) ∧ t.out = s.out ∧ t.cfg = s.cfg ∧
    (t.diag = s.diag ∨
      (s.regs[7] = s.cfg.stackSentinel ∧ s.cfg.underflowFatal = false ∧ t.regs = s.regs)) ∧
    (t.status = s.status ∨ t.Faulted)

/-- PRN, HLT, CMP, JEQ, JNE and JMP change no register, no cell of memory, not DIAG and no parameter; FL by
CMP alone, OUT by PRN alone, STATUS by HLT or a fault alone (R101, R102, R165 to R168). -/
def Obligations.ControlFormsFrame : Prop :=
  ∀ (i : Instr) (s t : State),
    i = .hlt ∨ (∃ r, i = .prn r ∨ i = .jeq r ∨ i = .jne r ∨ i = .jmp r) ∨ (∃ a b, i = .cmp a b) →
    exec i s = .next t →
    t.regs = s.regs ∧ (∀ a, t.mem.read a = s.mem.read a) ∧ t.diag = s.diag ∧ t.cfg = s.cfg ∧
    (i.op ≠ .cmp → t.fl = s.fl) ∧ (i.op ≠ .prn → t.out = s.out) ∧
    (i.op ≠ .hlt → t.status = s.status ∨ t.Faulted)

/-! ### Reset and launch (spec/70_reset_and_hazards.md) -/

/-- The reset state of R230 under any parameters (PC and STATUS by decisions D5 and D24), and the default
parameters of R2 in the machine after reset (log entries 3 and 4). Two clauses are the model's own, both
DEDUCED: that STATUS is RUNNING in the reset state already, before the host's start (log entry 11), and that
the host's reset keeps the parameters, hostReset = resetWith s.cfg (log entry 12). -/
def Obligations.ResetLeavesTheStatedValues : Prop :=
  (∀ (c : Config) (s : State), s.hostReset = State.resetWith s.cfg ∧
    (∀ j : Reg, (State.resetWith c).reg j = 0#8) ∧ (State.resetWith c).pc = 0#8 ∧
    (State.resetWith c).fl = .equal ∧ (∀ a, (State.resetWith c).mem.read a = 0#8) ∧
    (State.resetWith c).status = .running ∧ (State.resetWith c).out = [] ∧
    (State.resetWith c).diag = [] ∧ (State.resetWith c).cfg = c) ∧
  State.reset = State.resetWith State.reset.cfg ∧ State.reset.cfg.opcodeMap = defaultOpcodeMap ∧
  State.reset.cfg.stackSentinel = 128#8 ∧ State.reset.cfg.underflowFatal = true

/-- Preload (R232, decision D21): an image of at most 128 bytes lies from address 0 on, every other cell reads
0, everything else is as after reset; a longer one is refused. -/
def Obligations.LaunchPlacesTheImage : Prop :=
  ∀ (c : Config) (image : List Byte),
    (image.length ≤ 128 → ∃ s, launch c image = some s ∧
      (∀ (a : Nat) (h : a < image.length), s.mem.read a = image[a]) ∧
      (∀ a, image.length ≤ a → s.mem.read a = 0#8) ∧
      { s with mem := (State.resetWith c).mem } = State.resetWith c) ∧
    (128 < image.length → launch c image = none)

/-- Every state a run of any image passes through meets the invariant and has the parameters it was launched
with (R231, R232, R234). -/
def Obligations.ReachableStatesMeetTheInvariant : Prop :=
  ∀ (c : Config) (image : List Byte) (s : State), Reachable c image s → s.Inv ∧ s.cfg = c
end

