-- ==== Sys2Proof/Laws/Decode.lean ====
section
/-! SUPPORT. What the decoder and the encoder do (spec/30_encoding.md): one lemma per function. -/

namespace Sys2Proof

theorem Op.mem_all (o : Op) : o ∈ Op.all := by cases o <;> decide

theorem Op.operandCount_le (o : Op) : o.operandCount ≤ 2 := by cases o <;> decide

@[simp] theorem Instr.operands_length (i : Instr) : i.operands.length = i.op.operandCount := by
  cases i <;> rfl

/-- The decoder's table of operand shapes is the encoder's, read backwards. -/
theorem assembleInstr_eq_some {o : Op} {bs : List Byte} {i : Instr} :
    assembleInstr o bs = some i ↔ i.op = o ∧ i.operands = bs := by
  constructor
  · intro h
    unfold assembleInstr at h
    split at h <;> first | (cases h; exact ⟨rfl, rfl⟩) | cases h
  · rintro ⟨rfl, rfl⟩
    cases i <;> rfl

/-- A lookup finds a row whose byte is the WHOLE opcode byte and whose operand count is its tag. -/
theorem lookupOp_some {c : Config} {op : Byte} {o : Op} (h : lookupOp c op = some o) :
    opTag op = o.operandCount ∧ c.opcode o = op := by
  simpa using List.find?_some h

/-- A lookup that finds nothing: the byte is no row's. -/
theorem lookupOp_none {c : Config} {op : Byte} (h : lookupOp c op = none) (o : Op) :
    opTag op = o.operandCount → c.opcode o ≠ op := by
  have := List.find?_eq_none.mp h o (Op.mem_all o)
  simpa using this

/-- Under admissible parameters no two mnemonics share a byte. -/
theorem Config.Admissible.opcode_inj {c : Config} (hc : c.Admissible) {o o' : Op}
    (h : c.opcode o = c.opcode o') : o = o' :=
  List.inj_on_of_nodup_map hc.2.1 (Op.mem_all o) (Op.mem_all o') h

/-- Under admissible parameters each mnemonic's byte is found as that mnemonic. -/
theorem lookupOp_opcode {c : Config} (hc : c.Admissible) (o : Op) :
    lookupOp c (c.opcode o) = some o := by
  cases h : lookupOp c (c.opcode o) with
  | none => exact absurd rfl (lookupOp_none h o (hc.1 o (Op.mem_all o)))
  | some o' => exact congrArg some (hc.opcode_inj (lookupOp_some h).2)

/-- What a decode can give: the opcode byte and the operand bytes are exactly the instruction's. -/
theorem decodeInstr_some {c : Config} {op : Byte} {bs : List Byte} {i : Instr}
    (h : decodeInstr c op bs = some i) :
    op = c.opcode i.op ∧ bs = i.operands ∧ opTag op = i.op.operandCount := by
  unfold decodeInstr at h
  split at h
  · obtain ⟨rfl, rfl⟩ := assembleInstr_eq_some.mp h
    obtain ⟨h1, h2⟩ := lookupOp_some ‹_›
    exact ⟨h2.symm, rfl, h1⟩
  · cases h

/-- Under admissible parameters an instruction's own bytes decode to it. -/
theorem decodeInstr_operands {c : Config} (hc : c.Admissible) (i : Instr) :
    decodeInstr c (c.opcode i.op) i.operands = some i := by
  unfold decodeInstr
  rw [lookupOp_opcode hc]
  exact assembleInstr_eq_some.mpr ⟨rfl, rfl⟩

/-- With its operand bytes there, an opcode byte fails to decode exactly when it is in no row. -/
theorem decodeInstr_none {c : Config} {op : Byte} {bs : List Byte} (hl : bs.length = opTag op) :
    decodeInstr c op bs = none ↔ lookupOp c op = none := by
  unfold decodeInstr
  cases h : lookupOp c op with
  | none => simp
  | some o =>
    obtain ⟨h1, -⟩ := lookupOp_some h
    rw [h1] at hl
    simp only [reduceCtorEq, iff_false]
    cases o <;> simp [Op.operandCount, List.length_eq_zero_iff, List.length_eq_one_iff,
      List.length_eq_two] at hl <;> first
      | (subst hl; simp [assembleInstr])
      | (obtain ⟨a, rfl⟩ := hl; simp [assembleInstr])
      | (obtain ⟨a, b, rfl⟩ := hl; simp [assembleInstr])

/-- The free value keeps the limits the spec sets it (R68): whichever byte it is, the default parameters are
admissible. -/
theorem defaultConfig_admissible : defaultConfig.Admissible := by
  have h : ∀ k : Fin 54,
      (Config.mk defaultOpcodeMap (addiByte k) 0x80#8 true).Admissible := by decide
  exact h Config.addiChoice

end Sys2Proof
end

