-- ==== Sys2Proof/Laws/State.lean ====
section
/-! SUPPORT. What each named update of the state leaves in each field, so that no proof unfolds a record
update: one lemma per field per update. -/

namespace Sys2Proof.Machine

variable (s : State)

/-! ### setReg -/

@[simp] theorem State.setReg_regs (i : Reg) (v : Byte) : (s.setReg i v).regs = s.regs.set i.val v i.isLt := rfl
@[simp] theorem State.setReg_pc (i : Reg) (v : Byte) : (s.setReg i v).pc = s.pc := rfl
@[simp] theorem State.setReg_fl (i : Reg) (v : Byte) : (s.setReg i v).fl = s.fl := rfl
@[simp] theorem State.setReg_mem (i : Reg) (v : Byte) : (s.setReg i v).mem = s.mem := rfl
@[simp] theorem State.setReg_status (i : Reg) (v : Byte) : (s.setReg i v).status = s.status := rfl
@[simp] theorem State.setReg_out (i : Reg) (v : Byte) : (s.setReg i v).out = s.out := rfl
@[simp] theorem State.setReg_diag (i : Reg) (v : Byte) : (s.setReg i v).diag = s.diag := rfl
@[simp] theorem State.setReg_cfg (i : Reg) (v : Byte) : (s.setReg i v).cfg = s.cfg := rfl

/-! ### setSp -/

@[simp] theorem State.setSp_regs (v : Byte) : (s.setSp v).regs = s.regs.set spReg.val v spReg.isLt := rfl
@[simp] theorem State.setSp_pc (v : Byte) : (s.setSp v).pc = s.pc := rfl
@[simp] theorem State.setSp_fl (v : Byte) : (s.setSp v).fl = s.fl := rfl
@[simp] theorem State.setSp_mem (v : Byte) : (s.setSp v).mem = s.mem := rfl
@[simp] theorem State.setSp_status (v : Byte) : (s.setSp v).status = s.status := rfl
@[simp] theorem State.setSp_out (v : Byte) : (s.setSp v).out = s.out := rfl
@[simp] theorem State.setSp_diag (v : Byte) : (s.setSp v).diag = s.diag := rfl
@[simp] theorem State.setSp_cfg (v : Byte) : (s.setSp v).cfg = s.cfg := rfl

/-! ### jump -/

@[simp] theorem State.jump_regs (p : Byte) : (s.jump p).regs = s.regs := rfl
@[simp] theorem State.jump_pc (p : Byte) : (s.jump p).pc = p := rfl
@[simp] theorem State.jump_fl (p : Byte) : (s.jump p).fl = s.fl := rfl
@[simp] theorem State.jump_mem (p : Byte) : (s.jump p).mem = s.mem := rfl
@[simp] theorem State.jump_status (p : Byte) : (s.jump p).status = s.status := rfl
@[simp] theorem State.jump_out (p : Byte) : (s.jump p).out = s.out := rfl
@[simp] theorem State.jump_diag (p : Byte) : (s.jump p).diag = s.diag := rfl
@[simp] theorem State.jump_cfg (p : Byte) : (s.jump p).cfg = s.cfg := rfl

/-! ### advance -/

@[simp] theorem State.advance_regs (o : Op) : (s.advance o).regs = s.regs := rfl
@[simp] theorem State.advance_pc (o : Op) : (s.advance o).pc = s.pc + byteOfNat (1 + o.operandCount) := rfl
@[simp] theorem State.advance_fl (o : Op) : (s.advance o).fl = s.fl := rfl
@[simp] theorem State.advance_mem (o : Op) : (s.advance o).mem = s.mem := rfl
@[simp] theorem State.advance_status (o : Op) : (s.advance o).status = s.status := rfl
@[simp] theorem State.advance_out (o : Op) : (s.advance o).out = s.out := rfl
@[simp] theorem State.advance_diag (o : Op) : (s.advance o).diag = s.diag := rfl
@[simp] theorem State.advance_cfg (o : Op) : (s.advance o).cfg = s.cfg := rfl

/-! ### setFlag -/

@[simp] theorem State.setFlag_regs (f : Flag) : (s.setFlag f).regs = s.regs := rfl
@[simp] theorem State.setFlag_pc (f : Flag) : (s.setFlag f).pc = s.pc := rfl
@[simp] theorem State.setFlag_fl (f : Flag) : (s.setFlag f).fl = f := rfl
@[simp] theorem State.setFlag_mem (f : Flag) : (s.setFlag f).mem = s.mem := rfl
@[simp] theorem State.setFlag_status (f : Flag) : (s.setFlag f).status = s.status := rfl
@[simp] theorem State.setFlag_out (f : Flag) : (s.setFlag f).out = s.out := rfl
@[simp] theorem State.setFlag_diag (f : Flag) : (s.setFlag f).diag = s.diag := rfl
@[simp] theorem State.setFlag_cfg (f : Flag) : (s.setFlag f).cfg = s.cfg := rfl

/-! ### halt -/

@[simp] theorem State.halt_regs : s.halt.regs = s.regs := rfl
@[simp] theorem State.halt_pc : s.halt.pc = s.pc := rfl
@[simp] theorem State.halt_fl : s.halt.fl = s.fl := rfl
@[simp] theorem State.halt_mem : s.halt.mem = s.mem := rfl
@[simp] theorem State.halt_status : s.halt.status = .halted := rfl
@[simp] theorem State.halt_out : s.halt.out = s.out := rfl
@[simp] theorem State.halt_diag : s.halt.diag = s.diag := rfl
@[simp] theorem State.halt_cfg : s.halt.cfg = s.cfg := rfl

/-! ### emit -/

@[simp] theorem State.emit_regs (v : Byte) : (s.emit v).regs = s.regs := rfl
@[simp] theorem State.emit_pc (v : Byte) : (s.emit v).pc = s.pc := rfl
@[simp] theorem State.emit_fl (v : Byte) : (s.emit v).fl = s.fl := rfl
@[simp] theorem State.emit_mem (v : Byte) : (s.emit v).mem = s.mem := rfl
@[simp] theorem State.emit_status (v : Byte) : (s.emit v).status = s.status := rfl
@[simp] theorem State.emit_out (v : Byte) : (s.emit v).out = s.out ++ [v] := rfl
@[simp] theorem State.emit_diag (v : Byte) : (s.emit v).diag = s.diag := rfl
@[simp] theorem State.emit_cfg (v : Byte) : (s.emit v).cfg = s.cfg := rfl

/-! ### report -/

@[simp] theorem State.report_regs (k : DiagKind) (v : Byte) : (s.report k v).regs = s.regs := rfl
@[simp] theorem State.report_pc (k : DiagKind) (v : Byte) : (s.report k v).pc = s.pc := rfl
@[simp] theorem State.report_fl (k : DiagKind) (v : Byte) : (s.report k v).fl = s.fl := rfl
@[simp] theorem State.report_mem (k : DiagKind) (v : Byte) : (s.report k v).mem = s.mem := rfl
@[simp] theorem State.report_status (k : DiagKind) (v : Byte) : (s.report k v).status = s.status := rfl
@[simp] theorem State.report_out (k : DiagKind) (v : Byte) : (s.report k v).out = s.out := rfl
@[simp] theorem State.report_diag (k : DiagKind) (v : Byte) : (s.report k v).diag = s.diag ++ [{ kind := k, pc := s.pc, info := v }] := rfl
@[simp] theorem State.report_cfg (k : DiagKind) (v : Byte) : (s.report k v).cfg = s.cfg := rfl

/-! ### setCell -/

@[simp] theorem State.setCell_regs (a : Nat) (v : Byte) : (s.setCell a v).regs = s.regs := rfl
@[simp] theorem State.setCell_pc (a : Nat) (v : Byte) : (s.setCell a v).pc = s.pc := rfl
@[simp] theorem State.setCell_fl (a : Nat) (v : Byte) : (s.setCell a v).fl = s.fl := rfl
@[simp] theorem State.setCell_mem (a : Nat) (v : Byte) : (s.setCell a v).mem = s.mem.write a v := rfl
@[simp] theorem State.setCell_status (a : Nat) (v : Byte) : (s.setCell a v).status = s.status := rfl
@[simp] theorem State.setCell_out (a : Nat) (v : Byte) : (s.setCell a v).out = s.out := rfl
@[simp] theorem State.setCell_diag (a : Nat) (v : Byte) : (s.setCell a v).diag = s.diag := rfl
@[simp] theorem State.setCell_cfg (a : Nat) (v : Byte) : (s.setCell a v).cfg = s.cfg := rfl

/-! ### takeFault -/

@[simp] theorem State.takeFault_regs (op : Option Byte) (c : Cause) : (s.takeFault op c).regs = s.regs := rfl
@[simp] theorem State.takeFault_pc (op : Option Byte) (c : Cause) : (s.takeFault op c).pc = s.pc := rfl
@[simp] theorem State.takeFault_fl (op : Option Byte) (c : Cause) : (s.takeFault op c).fl = s.fl := rfl
@[simp] theorem State.takeFault_mem (op : Option Byte) (c : Cause) : (s.takeFault op c).mem = s.mem := rfl
@[simp] theorem State.takeFault_status (op : Option Byte) (c : Cause) : (s.takeFault op c).status = .faulted { cause := c, pc := s.pc, opcode := op } := rfl
@[simp] theorem State.takeFault_out (op : Option Byte) (c : Cause) : (s.takeFault op c).out = s.out := rfl
@[simp] theorem State.takeFault_diag (op : Option Byte) (c : Cause) : (s.takeFault op c).diag = s.diag := rfl
@[simp] theorem State.takeFault_cfg (op : Option Byte) (c : Cause) : (s.takeFault op c).cfg = s.cfg := rfl

/-! ### Reading a register after an update -/

/-- Reading a register after a write of one: the value written there, every other register as before. -/
@[simp] theorem State.reg_setReg (i j : Reg) (v : Byte) :
    (s.setReg i v).reg j = if j = i then v else s.reg j := by
  simp only [State.reg, State.setReg, Vector.get_eq_getElem, Vector.getElem_set, Fin.ext_iff, eq_comm]

@[simp] theorem State.reg_setSp (j : Reg) (v : Byte) :
    (s.setSp v).reg j = if j = spReg then v else s.reg j := s.reg_setReg spReg j v

@[simp] theorem State.reg_jump (p : Byte) (j : Reg) : (s.jump p).reg j = s.reg j := rfl
@[simp] theorem State.reg_advance (o : Op) (j : Reg) : (s.advance o).reg j = s.reg j := rfl
@[simp] theorem State.reg_setFlag (f : Flag) (j : Reg) : (s.setFlag f).reg j = s.reg j := rfl
@[simp] theorem State.reg_halt (j : Reg) : s.halt.reg j = s.reg j := rfl
@[simp] theorem State.reg_emit (v : Byte) (j : Reg) : (s.emit v).reg j = s.reg j := rfl
@[simp] theorem State.reg_report (k : DiagKind) (v : Byte) (j : Reg) : (s.report k v).reg j = s.reg j := rfl
@[simp] theorem State.reg_setCell (a : Nat) (v : Byte) (j : Reg) : (s.setCell a v).reg j = s.reg j := rfl
@[simp] theorem State.reg_takeFault (op : Option Byte) (c : Cause) (j : Reg) : (s.takeFault op c).reg j = s.reg j := rfl

/-! ### Reading SP after an update -/

@[simp] theorem State.sp_setSp (v : Byte) : (s.setSp v).sp = v := by simp [State.sp]

@[simp] theorem State.sp_setReg (i : Reg) (v : Byte) :
    (s.setReg i v).sp = if spReg = i then v else s.sp := by simp [State.sp]

@[simp] theorem State.sp_jump (p : Byte) : (s.jump p).sp = s.sp := rfl
@[simp] theorem State.sp_advance (o : Op) : (s.advance o).sp = s.sp := rfl
@[simp] theorem State.sp_setFlag (f : Flag) : (s.setFlag f).sp = s.sp := rfl
@[simp] theorem State.sp_halt : s.halt.sp = s.sp := rfl
@[simp] theorem State.sp_emit (v : Byte) : (s.emit v).sp = s.sp := rfl
@[simp] theorem State.sp_report (k : DiagKind) (v : Byte) : (s.report k v).sp = s.sp := rfl
@[simp] theorem State.sp_setCell (a : Nat) (v : Byte) : (s.setCell a v).sp = s.sp := rfl
@[simp] theorem State.sp_takeFault (op : Option Byte) (c : Cause) : (s.takeFault op c).sp = s.sp := rfl

/-! ### Updates that meet -/

@[simp] theorem State.setSp_setSp (v w : Byte) : (s.setSp v).setSp w = s.setSp w := by
  simp [State.setSp, State.setReg]

/-- Two states are equal when their fields are. -/
theorem State.ext_fields {s t : State} (hr : ∀ j, s.reg j = t.reg j) (hp : s.pc = t.pc) (hf : s.fl = t.fl)
    (hm : s.mem = t.mem) (hs : s.status = t.status) (ho : s.out = t.out) (hd : s.diag = t.diag)
    (hc : s.cfg = t.cfg) : s = t := by
  obtain ⟨r, p, f, m, st, o, d, c⟩ := s
  obtain ⟨r', p', f', m', st', o', d', c'⟩ := t
  have hregs : r = r' := by
    apply Vector.ext
    intro i hi
    exact hr ⟨i, hi⟩
  simp_all

end Sys2Proof.Machine
end

