-- ==== Sys2Proof/Laws/Memory.lean ====
section
/-! SUPPORT. The laws of memory (R41, R42, R49 of spec/20_memory.md): a read returns the last write, a write
leaves every other cell alone, and every operation keeps the canonical form. The first two hold of ANY list
of cells, canonical or not. -/

namespace Sys2Proof.Machine

theorem Memory.read_erase (m : Memory) (a b : Nat) :
    (m.erase a).read b = if b = a then 0x00#8 else m.read b := by
  induction m with
  | nil => simp [Memory.erase, Memory.read]
  | cons c m ih =>
    obtain ⟨x, v⟩ := c
    by_cases hx : x = a
    · subst hx
      by_cases hb : b = x
      · simpa [Memory.erase, hb] using ih
      · simp [Memory.erase, Memory.read, ih, hb, Ne.symm hb]
    · by_cases hb : x = b
      · subst hb
        simp [Memory.erase, Memory.read, hx]
      · simp [Memory.erase, Memory.read, hx, hb, ih]

theorem Memory.read_insert (m : Memory) (a b : Nat) (v : Byte) (h : m.read a = 0x00#8)
    (hn : ∀ c ∈ m, c.1 ≠ a) :
    (m.insert a v).read b = if b = a then v else m.read b := by
  induction m with
  | nil =>
    by_cases hb : a = b
    · simp [Memory.insert, Memory.read, hb]
    · simp [Memory.insert, Memory.read, hb, Ne.symm hb]
  | cons c m ih =>
    obtain ⟨x, w⟩ := c
    have hxa : x ≠ a := hn (x, w) (by simp)
    by_cases hlt : a < x
    · by_cases hb : a = b
      · subst hb
        simp [Memory.insert, hlt, Memory.read]
      · simp [Memory.insert, hlt, Memory.read, hb, Ne.symm hb]
    · have ih' := ih (by simpa [Memory.read, hxa] using h) (fun c hc => hn c (by simp [hc]))
      by_cases hxb : x = b
      · subst hxb
        simp [Memory.insert, hlt, Memory.read, hxa]
      · simp [Memory.insert, hlt, Memory.read, hxb, ih']

theorem Memory.erase_not_mem (m : Memory) (a : Nat) : ∀ c ∈ m.erase a, c.1 ≠ a := by
  induction m with
  | nil => simp [Memory.erase]
  | cons c m ih =>
    obtain ⟨x, v⟩ := c
    by_cases hx : x = a
    · simpa [Memory.erase, hx] using ih
    · simpa [Memory.erase, hx] using ih

/-- A read after a write: the value at the cell written, every other cell as before (R42, R49). -/
@[simp] theorem Memory.read_write (m : Memory) (a b : Nat) (v : Byte) :
    (m.write a v).read b = if b = a then v else m.read b := by
  by_cases hv : v = 0x00#8
  · simp [Memory.write, hv, Memory.read_erase]
  · have h := Memory.read_insert (m.erase a) a b v (by simp [Memory.read_erase]) (m.erase_not_mem a)
    simp only [Memory.write, hv, if_false, h, Memory.read_erase]
    split <;> rfl

@[simp] theorem Memory.read_nil (a : Nat) : Memory.read [] a = 0x00#8 := rfl

/-! ### The canonical form -/

theorem Memory.wfFrom_mono {m : Memory} {lo lo' : Nat} (hle : lo' ≤ lo) (h : Memory.wfFrom lo m = true) :
    Memory.wfFrom lo' m = true := by
  cases m with
  | nil => rfl
  | cons c m =>
    obtain ⟨x, v⟩ := c
    simp only [Memory.wfFrom, Bool.and_eq_true, decide_eq_true_eq] at h ⊢
    exact ⟨⟨⟨by omega, h.1.1.2⟩, h.1.2⟩, h.2⟩

theorem Memory.wfFrom_erase (m : Memory) (a lo : Nat) (h : Memory.wfFrom lo m = true) :
    Memory.wfFrom lo (m.erase a) = true := by
  induction m generalizing lo with
  | nil => rfl
  | cons c m ih =>
    obtain ⟨x, v⟩ := c
    simp only [Memory.wfFrom, Bool.and_eq_true, decide_eq_true_eq] at h
    by_cases hx : x = a
    · simp only [Memory.erase, hx, if_true]
      exact Memory.wfFrom_mono (by omega) (ih _ h.2)
    · simp only [Memory.erase, hx, if_false, Memory.wfFrom, Bool.and_eq_true, decide_eq_true_eq]
      exact ⟨h.1, ih _ h.2⟩

theorem Memory.wfFrom_insert (m : Memory) (a lo : Nat) (v : Byte) (h : Memory.wfFrom lo m = true)
    (hlo : lo ≤ a) (ha : a < 128) (hv : v ≠ 0x00#8) (hn : ∀ c ∈ m, c.1 ≠ a) :
    Memory.wfFrom lo (m.insert a v) = true := by
  induction m generalizing lo with
  | nil => simp [Memory.insert, Memory.wfFrom, hlo, ha, hv]
  | cons c m ih =>
    obtain ⟨x, w⟩ := c
    have hxa : x ≠ a := hn (x, w) (by simp)
    simp only [Memory.wfFrom, Bool.and_eq_true, decide_eq_true_eq, bne_iff_ne] at h
    by_cases hlt : a < x
    · simp only [Memory.insert, hlt, if_true, Memory.wfFrom, Bool.and_eq_true, decide_eq_true_eq,
        bne_iff_ne]
      exact ⟨⟨⟨hlo, ha⟩, hv⟩, ⟨⟨by omega, h.1.1.2⟩, h.1.2⟩, h.2⟩
    · simp only [Memory.insert, hlt, if_false, Memory.wfFrom, Bool.and_eq_true, decide_eq_true_eq,
        bne_iff_ne]
      exact ⟨h.1, ih (x + 1) h.2 (by omega) (fun c hc => hn c (by simp [hc]))⟩

/-- A write of an existing cell keeps the canonical form. -/
theorem Memory.wf_write {m : Memory} (a : Nat) (v : Byte) (h : m.wf = true) (ha : a < 128) :
    (m.write a v).wf = true := by
  by_cases hv : v = 0x00#8
  · simpa [Memory.wf, Memory.write, hv] using Memory.wfFrom_erase m a 0 h
  · simp only [Memory.wf, Memory.write, hv, if_false]
    exact Memory.wfFrom_insert _ a 0 v (Memory.wfFrom_erase m a 0 h) (Nat.zero_le _) ha hv
      (m.erase_not_mem a)

/-- An entry of a canonical memory lies in 0..127 and is not 0. -/
theorem Memory.wfFrom_mem {m : Memory} {lo : Nat} (h : Memory.wfFrom lo m = true) :
    ∀ c ∈ m, lo ≤ c.1 ∧ c.1 < 128 ∧ c.2 ≠ 0x00#8 := by
  induction m generalizing lo with
  | nil => simp
  | cons c m ih =>
    obtain ⟨x, v⟩ := c
    simp only [Memory.wfFrom, Bool.and_eq_true, decide_eq_true_eq, bne_iff_ne] at h
    intro d hd
    rcases List.mem_cons.mp hd with rfl | hd
    · exact ⟨h.1.1.1, h.1.1.2, h.1.2⟩
    · have := ih h.2 d hd
      exact ⟨by omega, this.2⟩

/-- A canonical memory has no entry below its bound. -/
theorem Memory.read_below {m : Memory} {lo a : Nat} (h : Memory.wfFrom lo m = true) (ha : a < lo) :
    m.read a = 0x00#8 := by
  induction m generalizing lo with
  | nil => rfl
  | cons c m ih =>
    obtain ⟨x, v⟩ := c
    simp only [Memory.wfFrom, Bool.and_eq_true, decide_eq_true_eq, bne_iff_ne] at h
    have hx : x ≠ a := by omega
    simp [Memory.read, hx, ih h.2 (by omega)]

/-- Two canonical memories that read alike everywhere are equal data. -/
theorem Memory.ext_read {m n : Memory} {lo : Nat} (hm : Memory.wfFrom lo m = true)
    (hn : Memory.wfFrom lo n = true) (h : ∀ a, m.read a = n.read a) : m = n := by
  induction m generalizing n lo with
  | nil =>
    cases n with
    | nil => rfl
    | cons c n =>
      obtain ⟨x, v⟩ := c
      simp only [Memory.wfFrom, Bool.and_eq_true, decide_eq_true_eq, bne_iff_ne] at hn
      exact absurd (by simpa [Memory.read] using (h x).symm) hn.1.2
  | cons c m ih =>
    obtain ⟨x, v⟩ := c
    have hm' := hm
    simp only [Memory.wfFrom, Bool.and_eq_true, decide_eq_true_eq, bne_iff_ne] at hm
    cases n with
    | nil => exact absurd (by simpa [Memory.read] using h x) hm.1.2
    | cons d n =>
      obtain ⟨y, w⟩ := d
      have hn' := hn
      simp only [Memory.wfFrom, Bool.and_eq_true, decide_eq_true_eq, bne_iff_ne] at hn
      have hxy : x = y := by
        rcases Nat.lt_trichotomy x y with hlt | heq | hgt
        · have h1 : Memory.read ((y, w) :: n) x = 0x00#8 :=
            Memory.read_below (lo := y) (by simp [Memory.wfFrom, hn]) hlt
          exact absurd (by rw [← h1, ← h x]; simp [Memory.read]) hm.1.2
        · exact heq
        · have h1 : Memory.read ((x, v) :: m) y = 0x00#8 :=
            Memory.read_below (lo := x) (by simp [Memory.wfFrom, hm]) hgt
          exact absurd (by rw [← h1, h y]; simp [Memory.read]) hn.1.2
      subst hxy
      have hvw : v = w := by simpa [Memory.read] using h x
      subst hvw
      have : m = n := by
        refine ih hm.2 hn.2 fun a => ?_
        by_cases ha : x = a
        · subst ha
          rw [Memory.read_below hm.2 (Nat.lt_succ_self x), Memory.read_below hn.2 (Nat.lt_succ_self x)]
        · simpa [Memory.read, ha] using h a
      rw [this]

/-! ### Bounded accesses -/

/-- What a read can do: the byte, or OutOfBounds(memory) (R41). -/
theorem State.memRead_ok {s : State} {a : Nat} {v : Byte} (h : s.memRead a = .ok v) :
    a < 128 ∧ v = s.mem.read a := by
  unfold State.memRead memSize at h
  split at h
  · exact ⟨‹_›, by simpa using h.symm⟩
  · cases h

theorem State.memRead_lt {s : State} {a : Nat} (h : a < 128) : s.memRead a = .ok (s.mem.read a) := by
  simp [State.memRead, memSize, h]

theorem State.memRead_ge {s : State} {a : Nat} (h : 128 ≤ a) :
    s.memRead a = .error (.outOfBounds .memory a) := by
  simp [State.memRead, memSize, Nat.not_lt.mpr h]

theorem State.memWrite_lt {s : State} {a : Nat} {v : Byte} (h : a < 128) :
    s.memWrite a v = .ok (s.setCell a v) := by
  simp [State.memWrite, memSize, h]

theorem State.memWrite_ge {s : State} {a : Nat} {v : Byte} (h : 128 ≤ a) :
    s.memWrite a v = .error (.outOfBounds .memory a) := by
  simp [State.memWrite, memSize, Nat.not_lt.mpr h]

/-- What a write can do: the one cell is written, or OutOfBounds(memory) (R42). -/
theorem State.memWrite_ok {s t : State} {a : Nat} {v : Byte} (h : s.memWrite a v = .ok t) :
    a < 128 ∧ t = s.setCell a v := by
  unfold State.memWrite memSize at h
  split at h
  · exact ⟨‹_›, by simpa using h.symm⟩
  · cases h

/-! ### Placing an image -/

theorem Memory.read_place (bs : List Byte) (m : Memory) (a b : Nat) :
    (m.place a bs).read b =
      if h : a ≤ b ∧ b - a < bs.length ∧ b < 128 then bs[b - a]'h.2.1 else m.read b := by
  induction bs generalizing m a with
  | nil => simp [Memory.place]
  | cons c bs ih =>
    simp only [Memory.place, ih, memSize]
    by_cases h1 : a + 1 ≤ b ∧ b - (a + 1) < bs.length ∧ b < 128
    · have h2 : a ≤ b ∧ b - a < (c :: bs).length ∧ b < 128 := by simp; omega
      have h3 : b - a = b - (a + 1) + 1 := by omega
      rw [dif_pos h1, dif_pos h2]
      simp only [h3, List.getElem_cons_succ]
    · rw [dif_neg h1]
      by_cases hb : b = a
      · subst hb
        by_cases hlt : b < 128 <;> simp [hlt]
      · have h2 : ¬(a ≤ b ∧ b - a < (c :: bs).length ∧ b < 128) := by
          simp only [List.length_cons]
          omega
        rw [dif_neg h2]
        by_cases hlt : a < 128 <;> simp [hlt, hb]

theorem Memory.wf_place (bs : List Byte) (m : Memory) (a : Nat) (h : m.wf = true) :
    (m.place a bs).wf = true := by
  induction bs generalizing m a with
  | nil => exact h
  | cons c bs ih =>
    simp only [Memory.place, memSize]
    by_cases hlt : a < 128
    · rw [if_pos hlt]
      exact ih _ _ (Memory.wf_write a c h hlt)
    · rw [if_neg hlt]
      exact ih _ _ h

end Sys2Proof.Machine
end

