-- ==== Sys2Proof/Laws/Ops.lean ====
section
/-! SUPPORT. What each shared operation can do, said once: the register check, the operand forms, the end of
an instruction, the stack primitives. -/

namespace Sys2Proof.Machine

/-! ### The register check -/

theorem checkReg_lt {i : Byte} (h : i.toNat < 8) : checkReg i = .ok ⟨i.toNat, h⟩ := by
  simp [checkReg, h]

theorem checkReg_ge {i : Byte} (h : 8 ≤ i.toNat) :
    checkReg i = .error (.outOfBounds .register i.toNat) := by
  simp [checkReg, Nat.not_lt.mpr h]

theorem checkReg_ok {i : Byte} {d : Reg} (h : checkReg i = .ok d) : d.val = i.toNat := by
  unfold checkReg at h
  split at h
  · cases h; rfl
  · cases h

/-! ### The end of an instruction -/

@[simp] theorem State.finish_ok (s t : State) (o : Op) : s.finish o (.ok t) = .next t := rfl

@[simp] theorem State.finish_error (s : State) (o : Op) (c : Cause) :
    s.finish o (.error c) = .next (s.takeFault (some (s.cfg.opcode o)) c) := rfl

/-- An instruction ends with its writes or with the fault it raised. -/
theorem State.finish_next {s t : State} {o : Op} {r : Except Cause State} (h : s.finish o r = .next t) :
    r = .ok t ∨ ∃ c, r = .error c ∧ t = s.takeFault (some (s.cfg.opcode o)) c := by
  cases r with
  | ok u => cases h; exact .inl rfl
  | error c => cases h; exact .inr ⟨c, rfl, rfl⟩

/-- An instruction always ends in a next state. -/
theorem State.finish_total (s : State) (o : Op) (r : Except Cause State) : ∃ t, s.finish o r = .next t := by
  cases r <;> exact ⟨_, rfl⟩

/-! ### The operand forms -/

theorem formR_lt {o : Op} {r : Byte} {s : State} {body : Reg → Except Cause State} (h : r.toNat < 8) :
    formR o r s body = s.finish o (body ⟨r.toNat, h⟩) := by
  simp [formR, checkReg_lt h]

theorem formR_ge {o : Op} {r : Byte} {s : State} {body : Reg → Except Cause State} (h : 8 ≤ r.toNat) :
    formR o r s body = .next (s.takeFault (some (s.cfg.opcode o)) (.outOfBounds .register r.toNat)) := by
  simp [formR, checkReg_ge h]

theorem formRR_lt {o : Op} {a b : Byte} {s : State} {body : Reg → Reg → Except Cause State}
    (ha : a.toNat < 8) (hb : b.toNat < 8) :
    formRR o a b s body = s.finish o (body ⟨a.toNat, ha⟩ ⟨b.toNat, hb⟩) := by
  simp [formRR, checkReg_lt ha, checkReg_lt hb]

theorem formRR_ge_first {o : Op} {a b : Byte} {s : State} {body : Reg → Reg → Except Cause State}
    (h : 8 ≤ a.toNat) :
    formRR o a b s body = .next (s.takeFault (some (s.cfg.opcode o)) (.outOfBounds .register a.toNat)) := by
  simp [formRR, checkReg_ge h]

theorem formRR_ge_second {o : Op} {a b : Byte} {s : State} {body : Reg → Reg → Except Cause State}
    (ha : a.toNat < 8) (h : 8 ≤ b.toNat) :
    formRR o a b s body = .next (s.takeFault (some (s.cfg.opcode o)) (.outOfBounds .register b.toNat)) := by
  simp [formRR, checkReg_lt ha, checkReg_ge h]

/-- A one-register form: the register check raised, or the body ran on the register. -/
theorem formR_next {o : Op} {r : Byte} {s t : State} {body : Reg → Except Cause State}
    (h : formR o r s body = .next t) :
    (∃ hr : r.toNat < 8, s.finish o (body ⟨r.toNat, hr⟩) = .next t) ∨
    (8 ≤ r.toNat ∧ t = s.takeFault (some (s.cfg.opcode o)) (.outOfBounds .register r.toNat)) := by
  by_cases hr : r.toNat < 8
  · exact .inl ⟨hr, formR_lt hr ▸ h⟩
  · have hr := Nat.not_lt.mp hr
    rw [formR_ge hr] at h
    cases h
    exact .inr ⟨hr, rfl⟩

/-- A two-register form: the register check raised on one of the operands, or the body ran on both. -/
theorem formRR_next {o : Op} {a b : Byte} {s t : State} {body : Reg → Reg → Except Cause State}
    (h : formRR o a b s body = .next t) :
    (∃ (ha : a.toNat < 8) (hb : b.toNat < 8), s.finish o (body ⟨a.toNat, ha⟩ ⟨b.toNat, hb⟩) = .next t) ∨
    (∃ i, (i = a ∨ i = b) ∧ 8 ≤ i.toNat ∧
      t = s.takeFault (some (s.cfg.opcode o)) (.outOfBounds .register i.toNat)) := by
  by_cases ha : a.toNat < 8
  · by_cases hb : b.toNat < 8
    · exact .inl ⟨ha, hb, formRR_lt ha hb ▸ h⟩
    · have hb := Nat.not_lt.mp hb
      rw [formRR_ge_second ha hb] at h
      cases h
      exact .inr ⟨b, .inr rfl, hb, rfl⟩
  · have ha := Nat.not_lt.mp ha
    rw [formRR_ge_first ha] at h
    cases h
    exact .inr ⟨a, .inl rfl, ha, rfl⟩

/-! ### The stack primitives -/

/-- What a Push can do (R141): SP moves and the one cell below it is written, or the write is out of
bounds. -/
theorem State.push_ok {s t : State} {v : State → Byte} (h : s.push v = .ok t) :
    s.pushSp.toNat < 128 ∧ t = (s.setSp s.pushSp).setCell s.pushSp.toNat (v (s.setSp s.pushSp)) :=
  State.memWrite_ok h

theorem State.push_lt {s : State} {v : State → Byte} (h : s.pushSp.toNat < 128) :
    s.push v = .ok ((s.setSp s.pushSp).setCell s.pushSp.toNat (v (s.setSp s.pushSp))) :=
  State.memWrite_lt h

theorem State.push_ge {s : State} {v : State → Byte} (h : 128 ≤ s.pushSp.toNat) :
    s.push v = .error (.outOfBounds .memory s.pushSp.toNat) :=
  State.memWrite_ge h

theorem State.push_error {s : State} {v : State → Byte} {c : Cause} (h : s.push v = .error c) :
    128 ≤ s.pushSp.toNat ∧ c = .outOfBounds .memory s.pushSp.toNat := by
  by_cases hlt : s.pushSp.toNat < 128
  · rw [State.push_lt hlt] at h
    cases h
  · have hge := Nat.not_lt.mp hlt
    rw [State.push_ge hge] at h
    cases h
    exact ⟨hge, rfl⟩

/-- The state a Pop of a byte leaves (R142). -/
def State.popped (s : State) (dest : State → Byte → State) : State :=
  (dest s (s.mem.read s.sp.toNat)).setSp ((dest s (s.mem.read s.sp.toNat)).sp + 1#8)

theorem State.pop_value {s : State} {dest : State → Byte → State} (he : s.sp ≠ s.cfg.stackSentinel)
    (h : s.sp.toNat < 128) : s.pop dest = .ok (.value (s.popped dest)) := by
  simp [State.pop, he, State.memRead_lt h, State.popped]

theorem State.pop_outside {s : State} {dest : State → Byte → State} (he : s.sp ≠ s.cfg.stackSentinel)
    (h : 128 ≤ s.sp.toNat) : s.pop dest = .error (.outOfBounds .memory s.sp.toNat) := by
  simp [State.pop, he, State.memRead_ge h]

theorem State.pop_empty_fatal {s : State} {dest : State → Byte → State} (he : s.sp = s.cfg.stackSentinel)
    (hf : s.cfg.underflowFatal = true) : s.pop dest = .error (.stackUnderflow s.sp) := by
  simp [State.pop, he, hf]

theorem State.pop_empty_report {s : State} {dest : State → Byte → State} (he : s.sp = s.cfg.stackSentinel)
    (hf : s.cfg.underflowFatal = false) :
    s.pop dest = .ok (.underflow (s.report .stackUnderflow s.sp)) := by
  simp [State.pop, he, hf]

/-- What a Pop can do (R142, R143). -/
theorem State.pop_cases (s : State) (dest : State → Byte → State) :
    (s.sp ≠ s.cfg.stackSentinel ∧ s.sp.toNat < 128 ∧ s.pop dest = .ok (.value (s.popped dest))) ∨
    (s.sp ≠ s.cfg.stackSentinel ∧ 128 ≤ s.sp.toNat ∧
      s.pop dest = .error (.outOfBounds .memory s.sp.toNat)) ∨
    (s.sp = s.cfg.stackSentinel ∧ s.cfg.underflowFatal = true ∧
      s.pop dest = .error (.stackUnderflow s.sp)) ∨
    (s.sp = s.cfg.stackSentinel ∧ s.cfg.underflowFatal = false ∧
      s.pop dest = .ok (.underflow (s.report .stackUnderflow s.sp))) := by
  by_cases he : s.sp = s.cfg.stackSentinel
  · cases hf : s.cfg.underflowFatal with
    | true => exact .inr (.inr (.inl ⟨he, rfl, State.pop_empty_fatal he hf⟩))
    | false => exact .inr (.inr (.inr ⟨he, rfl, State.pop_empty_report he hf⟩))
  · by_cases h : s.sp.toNat < 128
    · exact .inl ⟨he, h, State.pop_value he h⟩
    · have h := Nat.not_lt.mp h
      exact .inr (.inl ⟨he, h, State.pop_outside he h⟩)

/-! ### The canonical form -/

theorem State.setCell_wf {s : State} {a : Nat} {v : Byte} (h : s.mem.wf = true) (ha : a < 128) :
    (s.setCell a v).mem.wf = true :=
  Memory.wf_write a v h ha

end Sys2Proof.Machine
end

