-- ==== Sys2Proof/Laws/PerInstr.lean ====
section
/-! SUPPORT. Statements about every instruction as syntax, one lemma per constructor.
EncodingShape: an instruction's bytes are its opcode byte, then as many operand bytes as the opcode table
gives it, and its register operands are among them (R60, R61). -/

namespace Sys2Proof.Laws.EncodingShape

/-- The shape of an instruction's encoding, under any parameters. -/
def Statement (i : Instr) : Prop :=
  ∀ c : Config, ∃ bs, encode c i = c.opcode i.op :: bs ∧ bs.length = i.op.operandCount ∧
    i.regOperands.Sublist bs

theorem ldi (r imm : Byte) : Statement (.ldi r imm) :=
  fun _ => ⟨_, rfl, rfl, by simp [Instr.regOperands, Instr.operands]⟩

theorem prn (r : Byte) : Statement (.prn r) :=
  fun _ => ⟨_, rfl, rfl, by simp [Instr.regOperands, Instr.operands]⟩

theorem hlt : Statement .hlt :=
  fun _ => ⟨_, rfl, rfl, by simp [Instr.regOperands, Instr.operands]⟩

theorem mul (a b : Byte) : Statement (.mul a b) :=
  fun _ => ⟨_, rfl, rfl, by simp [Instr.regOperands, Instr.operands]⟩

theorem add (a b : Byte) : Statement (.add a b) :=
  fun _ => ⟨_, rfl, rfl, by simp [Instr.regOperands, Instr.operands]⟩

theorem and (a b : Byte) : Statement (.and a b) :=
  fun _ => ⟨_, rfl, rfl, by simp [Instr.regOperands, Instr.operands]⟩

theorem or (a b : Byte) : Statement (.or a b) :=
  fun _ => ⟨_, rfl, rfl, by simp [Instr.regOperands, Instr.operands]⟩

theorem xor (a b : Byte) : Statement (.xor a b) :=
  fun _ => ⟨_, rfl, rfl, by simp [Instr.regOperands, Instr.operands]⟩

theorem not (a : Byte) : Statement (.not a) :=
  fun _ => ⟨_, rfl, rfl, by simp [Instr.regOperands, Instr.operands]⟩

theorem shl (a b : Byte) : Statement (.shl a b) :=
  fun _ => ⟨_, rfl, rfl, by simp [Instr.regOperands, Instr.operands]⟩

theorem shr (a b : Byte) : Statement (.shr a b) :=
  fun _ => ⟨_, rfl, rfl, by simp [Instr.regOperands, Instr.operands]⟩

theorem mod (a b : Byte) : Statement (.mod a b) :=
  fun _ => ⟨_, rfl, rfl, by simp [Instr.regOperands, Instr.operands]⟩

theorem push (r : Byte) : Statement (.push r) :=
  fun _ => ⟨_, rfl, rfl, by simp [Instr.regOperands, Instr.operands]⟩

theorem pop (r : Byte) : Statement (.pop r) :=
  fun _ => ⟨_, rfl, rfl, by simp [Instr.regOperands, Instr.operands]⟩

theorem call (r : Byte) : Statement (.call r) :=
  fun _ => ⟨_, rfl, rfl, by simp [Instr.regOperands, Instr.operands]⟩

theorem ret : Statement .ret :=
  fun _ => ⟨_, rfl, rfl, by simp [Instr.regOperands, Instr.operands]⟩

theorem cmp (a b : Byte) : Statement (.cmp a b) :=
  fun _ => ⟨_, rfl, rfl, by simp [Instr.regOperands, Instr.operands]⟩

theorem jeq (r : Byte) : Statement (.jeq r) :=
  fun _ => ⟨_, rfl, rfl, by simp [Instr.regOperands, Instr.operands]⟩

theorem jne (r : Byte) : Statement (.jne r) :=
  fun _ => ⟨_, rfl, rfl, by simp [Instr.regOperands, Instr.operands]⟩

theorem jmp (r : Byte) : Statement (.jmp r) :=
  fun _ => ⟨_, rfl, rfl, by simp [Instr.regOperands, Instr.operands]⟩

theorem addi (imm r : Byte) : Statement (.addi imm r) :=
  fun _ => ⟨_, rfl, rfl, by simp [Instr.regOperands, Instr.operands]⟩

end Sys2Proof.Laws.EncodingShape
end

