-- ==== Sys2Proof/Laws/Step.lean ====
section
/-! SUPPORT. What a step and an instruction can do, said once: every later proof cites these and unfolds
neither `step` nor a meaning. -/

namespace Sys2Proof.Machine

/-- The effect an instruction has when it completes without a fault: the pseudocode of its rule. -/
def Effect (s t : State) : Instr → Prop
  | .ldi r imm => ∃ h : r.toNat < 8, t = (s.setReg ⟨r.toNat, h⟩ imm).advance .ldi
  | .prn r => ∃ h : r.toNat < 8, t = (s.emit (s.reg ⟨r.toNat, h⟩)).advance .prn
  | .hlt => t = s.halt.advance .hlt
  | .mul a b => Binary .mul aluMul a b
  | .add a b => Binary .add aluAdd a b
  | .and a b => Binary .and aluAnd a b
  | .or a b => Binary .or aluOr a b
  | .xor a b => Binary .xor aluXor a b
  | .not a => ∃ h : a.toNat < 8,
      t = (s.setReg ⟨a.toNat, h⟩ (aluNot (s.reg ⟨a.toNat, h⟩))).advance .not
  | .shl a b => Binary .shl aluShl a b
  | .shr a b => Binary .shr aluShr a b
  | .mod a b => Binary .mod aluMod a b ∧ ∀ h : b.toNat < 8, s.reg ⟨b.toNat, h⟩ ≠ 0x00#8
  | .push r => ∃ h : r.toNat < 8, s.pushSp.toNat < 128 ∧
      t = ((s.setSp s.pushSp).setCell s.pushSp.toNat
        ((s.setSp s.pushSp).reg ⟨r.toNat, h⟩)).advance .push
  | .pop r => ∃ h : r.toNat < 8,
      (s.sp ≠ s.cfg.stackSentinel ∧ s.sp.toNat < 128 ∧
        t = (s.popped fun u v => u.setReg ⟨r.toNat, h⟩ v).advance .pop) ∨
      (s.sp = s.cfg.stackSentinel ∧ s.cfg.underflowFatal = false ∧
        t = (s.report .stackUnderflow s.sp).advance .pop)
  | .call r => ∃ h : r.toNat < 8, s.pushSp.toNat < 128 ∧
      t = ((s.setSp s.pushSp).setCell s.pushSp.toNat (s.pc + 2#8)).jump
        ((s.setSp s.pushSp).reg ⟨r.toNat, h⟩)
  | .ret =>
      (s.sp ≠ s.cfg.stackSentinel ∧ s.sp.toNat < 128 ∧ t = s.popped fun u v => u.jump v) ∨
      (s.sp = s.cfg.stackSentinel ∧ s.cfg.underflowFatal = false ∧
        t = (s.report .stackUnderflow s.sp).advance .ret)
  | .cmp a b => ∃ (ha : a.toNat < 8) (hb : b.toNat < 8),
      t = (s.setFlag (compareFlag (s.reg ⟨a.toNat, ha⟩) (s.reg ⟨b.toNat, hb⟩))).advance .cmp
  | .jeq r => ∃ h : r.toNat < 8,
      t = if s.fl = .equal then s.jump (s.reg ⟨r.toNat, h⟩) else s.advance .jeq
  | .jne r => ∃ h : r.toNat < 8,
      t = if s.fl = .equal then s.advance .jne else s.jump (s.reg ⟨r.toNat, h⟩)
  | .jmp r => ∃ h : r.toNat < 8, t = s.jump (s.reg ⟨r.toNat, h⟩)
  | .addi imm r => ∃ h : r.toNat < 8,
      t = (s.setReg ⟨r.toNat, h⟩ (aluAdd (s.reg ⟨r.toNat, h⟩) imm)).advance .addi
where
  /-- The effect of a two-register ALU instruction (R110). -/
  Binary (o : Op) (f : Byte → Byte → Byte) (a b : Byte) : Prop :=
    ∃ (ha : a.toNat < 8) (hb : b.toNat < 8),
      t = (s.setReg ⟨a.toNat, ha⟩ (f (s.reg ⟨a.toNat, ha⟩) (s.reg ⟨b.toNat, hb⟩))).advance o

/-- The causes an instruction itself can raise, once fetched and decoded (R201). -/
def Raises (s : State) (c : Cause) (i : Instr) : Prop :=
  (∃ r ∈ i.regOperands, 8 ≤ r.toNat ∧ c = .outOfBounds .register r.toNat) ∨
  ((i.op = .push ∨ i.op = .call) ∧ 128 ≤ s.pushSp.toNat ∧ c = .outOfBounds .memory s.pushSp.toNat) ∨
  ((i.op = .pop ∨ i.op = .ret) ∧ s.sp = s.cfg.stackSentinel ∧ s.cfg.underflowFatal = true ∧
    c = .stackUnderflow s.sp) ∨
  ((i.op = .pop ∨ i.op = .ret) ∧ s.sp ≠ s.cfg.stackSentinel ∧ 128 ≤ s.sp.toNat ∧
    c = .outOfBounds .memory s.sp.toNat) ∨
  (∃ a b, i = .mod a b ∧ ∃ h : b.toNat < 8, s.reg ⟨b.toNat, h⟩ = 0x00#8 ∧ c = .divideByZero ⟨b.toNat, h⟩)

theorem aluBinary_next {o : Op} {f : Byte → Byte → Byte} {a b : Byte} {s t : State}
    (h : aluBinary o f a b s = .next t) :
    Effect.Binary s t o f a b ∨
    ∃ i, (i = a ∨ i = b) ∧ 8 ≤ i.toNat ∧
      t = s.takeFault (some (s.cfg.opcode o)) (.outOfBounds .register i.toNat) := by
  rcases formRR_next h with ⟨ha, hb, h⟩ | h
  · rw [State.finish_ok] at h
    cases h
    exact .inl ⟨ha, hb, rfl⟩
  · exact .inr h

/-- What an instruction can do: its rule's effect, or a fault its rule names, which leaves the state before
it and STATUS = FAULTED. -/
theorem exec_next {i : Instr} {s t : State} (h : exec i s = .next t) :
    Effect s t i ∨ ∃ c, Raises s c i ∧ t = s.takeFault (some (s.cfg.opcode i.op)) c := by
  have one : ∀ {o : Op} {r : Byte} {body : Reg → Except Cause State},
      i.op = o → i.regOperands = [r] → formR o r s body = .next t →
      (∃ hr : r.toNat < 8, s.finish o (body ⟨r.toNat, hr⟩) = .next t) ∨
      ∃ c, Raises s c i ∧ t = s.takeFault (some (s.cfg.opcode i.op)) c := by
    intro o r body ho hr h
    rcases formR_next h with h | ⟨hge, rfl⟩
    · exact .inl h
    · exact .inr ⟨_, .inl ⟨r, by simp [hr], hge, rfl⟩, by rw [ho]⟩
  have two : ∀ {o : Op} {a b : Byte} {body : Reg → Reg → Except Cause State},
      i.op = o → i.regOperands = [a, b] → formRR o a b s body = .next t →
      (∃ (ha : a.toNat < 8) (hb : b.toNat < 8),
        s.finish o (body ⟨a.toNat, ha⟩ ⟨b.toNat, hb⟩) = .next t) ∨
      ∃ c, Raises s c i ∧ t = s.takeFault (some (s.cfg.opcode i.op)) c := by
    intro o a b body ho hr h
    rcases formRR_next h with h | ⟨r, hor, hge, rfl⟩
    · exact .inl h
    · exact .inr ⟨_, .inl ⟨r, by simpa [hr] using hor, hge, rfl⟩, by rw [ho]⟩
  have alu : ∀ {o : Op} {f : Byte → Byte → Byte} {a b : Byte},
      i.op = o → i.regOperands = [a, b] → aluBinary o f a b s = .next t →
      Effect.Binary s t o f a b ∨ ∃ c, Raises s c i ∧ t = s.takeFault (some (s.cfg.opcode i.op)) c := by
    intro o f a b ho hr h
    rcases aluBinary_next h with h | ⟨r, hor, hge, rfl⟩
    · exact .inl h
    · exact .inr ⟨_, .inl ⟨r, by simpa [hr] using hor, hge, rfl⟩, by rw [ho]⟩
  cases i with
  | ldi r imm =>
    rcases one rfl rfl h with ⟨hr, h⟩ | h
    · cases h; exact .inl ⟨hr, rfl⟩
    · exact .inr h
  | prn r =>
    rcases one rfl rfl h with ⟨hr, h⟩ | h
    · cases h; exact .inl ⟨hr, rfl⟩
    · exact .inr h
  | hlt => cases h; exact .inl rfl
  | mul a b => exact alu rfl rfl h
  | add a b => exact alu rfl rfl h
  | and a b => exact alu rfl rfl h
  | or a b => exact alu rfl rfl h
  | xor a b => exact alu rfl rfl h
  | not a =>
    rcases one rfl rfl h with ⟨hr, h⟩ | h
    · cases h; exact .inl ⟨hr, rfl⟩
    · exact .inr h
  | shl a b => exact alu rfl rfl h
  | shr a b => exact alu rfl rfl h
  | mod a b =>
    rcases two rfl rfl h with ⟨ha, hb, h⟩ | h
    · by_cases hz : s.reg ⟨b.toNat, hb⟩ = 0x00#8
      · simp only [hz, if_true, State.finish_error] at h
        cases h
        exact .inr ⟨_, .inr (.inr (.inr (.inr ⟨a, b, rfl, hb, hz, rfl⟩))), rfl⟩
      · simp only [hz, if_false, State.finish_ok] at h
        cases h
        exact .inl ⟨⟨ha, hb, rfl⟩, fun _ => hz⟩
    · exact .inr h
  | push r =>
    rcases one rfl rfl h with ⟨hr, h⟩ | h
    · by_cases hp : s.pushSp.toNat < 128
      · rw [State.push_lt hp] at h
        cases h
        exact .inl ⟨hr, hp, rfl⟩
      · have hp := Nat.not_lt.mp hp
        rw [State.push_ge hp] at h
        cases h
        exact .inr ⟨_, .inr (.inl ⟨.inl rfl, hp, rfl⟩), rfl⟩
    · exact .inr h
  | pop r =>
    rcases one rfl rfl h with ⟨hr, h⟩ | h
    · rcases s.pop_cases (fun u v => u.setReg ⟨r.toNat, hr⟩ v) with
        ⟨h1, h2, he⟩ | ⟨h1, h2, he⟩ | ⟨h1, h2, he⟩ | ⟨h1, h2, he⟩ <;> rw [he] at h <;> cases h
      · exact .inl ⟨hr, .inl ⟨h1, h2, rfl⟩⟩
      · exact .inr ⟨_, .inr (.inr (.inr (.inl ⟨.inl rfl, h1, h2, rfl⟩))), rfl⟩
      · exact .inr ⟨_, .inr (.inr (.inl ⟨.inl rfl, h1, h2, rfl⟩)), rfl⟩
      · exact .inl ⟨hr, .inr ⟨h1, h2, rfl⟩⟩
    · exact .inr h
  | call r =>
    rcases one rfl rfl h with ⟨hr, h⟩ | h
    · by_cases hp : s.pushSp.toNat < 128
      · rw [State.push_lt hp] at h
        cases h
        exact .inl ⟨hr, hp, rfl⟩
      · have hp := Nat.not_lt.mp hp
        rw [State.push_ge hp] at h
        cases h
        exact .inr ⟨_, .inr (.inl ⟨.inr rfl, hp, rfl⟩), rfl⟩
    · exact .inr h
  | ret =>
    change s.finish .ret _ = _ at h
    rcases s.pop_cases (fun u v => u.jump v) with
      ⟨h1, h2, he⟩ | ⟨h1, h2, he⟩ | ⟨h1, h2, he⟩ | ⟨h1, h2, he⟩ <;> rw [he] at h <;> cases h
    · exact .inl (.inl ⟨h1, h2, rfl⟩)
    · exact .inr ⟨_, .inr (.inr (.inr (.inl ⟨.inr rfl, h1, h2, rfl⟩))), rfl⟩
    · exact .inr ⟨_, .inr (.inr (.inl ⟨.inr rfl, h1, h2, rfl⟩)), rfl⟩
    · exact .inl (.inr ⟨h1, h2, rfl⟩)
  | cmp a b =>
    rcases two rfl rfl h with ⟨ha, hb, h⟩ | h
    · cases h; exact .inl ⟨ha, hb, rfl⟩
    · exact .inr h
  | jeq r =>
    rcases one rfl rfl h with ⟨hr, h⟩ | h
    · cases h; exact .inl ⟨hr, by simp [jeqTaken]⟩
    · exact .inr h
  | jne r =>
    rcases one rfl rfl h with ⟨hr, h⟩ | h
    · cases h; exact .inl ⟨hr, by simp [jneTaken]⟩
    · exact .inr h
  | jmp r =>
    rcases one rfl rfl h with ⟨hr, h⟩ | h
    · cases h; exact .inl ⟨hr, rfl⟩
    · exact .inr h
  | addi imm r =>
    rcases one rfl rfl h with ⟨hr, h⟩ | h
    · cases h; exact .inl ⟨hr, rfl⟩
    · exact .inr h

/-! ### Fetching -/

/-- What reading bytes in order can give: all of them, and every address lies in Memory. -/
theorem State.readBytes_ok {s : State} {a n : Nat} {bs : List Byte} (h : s.readBytes a n = .ok bs) :
    bs = (List.range n).map (fun k => s.mem.read (a + k)) ∧ (n = 0 ∨ a + n ≤ 128) := by
  induction n generalizing a bs with
  | zero => cases h; simp
  | succ n ih =>
    simp only [State.readBytes] at h
    split at h
    · cases h
    · rename_i b hb
      split at h
      · cases h
      · rename_i bs' hbs
        cases h
        obtain ⟨h1, rfl⟩ := State.memRead_ok hb
        obtain ⟨rfl, h2⟩ := ih hbs
        refine ⟨?_, .inr (by omega)⟩
        simp [List.range_succ_eq_map, Function.comp_def, Nat.add_assoc, Nat.add_comm 1]

theorem State.readBytes_inside {s : State} {a n : Nat} (h : a + n ≤ 128) :
    s.readBytes a n = .ok ((List.range n).map fun k => s.mem.read (a + k)) := by
  induction n generalizing a with
  | zero => rfl
  | succ n ih =>
    simp only [State.readBytes, State.memRead_lt (show a < 128 by omega), ih (show a + 1 + n ≤ 128 by omega)]
    simp [List.range_succ_eq_map, Function.comp_def, Nat.add_assoc, Nat.add_comm 1]

/-- The first address outside Memory is the one reported (R71, R206): starting inside, that is 128. -/
theorem State.readBytes_outside {s : State} {a n : Nat} (ha : a ≤ 128) (h : 128 < a + n) :
    s.readBytes a n = .error (.outOfBounds .memory 128) := by
  induction n generalizing a with
  | zero => omega
  | succ n ih =>
    by_cases hlt : a < 128
    · simp only [State.readBytes, State.memRead_lt hlt, ih (show a + 1 ≤ 128 by omega) (by omega)]
    · have : a = 128 := by omega
      subst this
      simp only [State.readBytes, State.memRead_ge (Nat.le_refl 128)]

/-- The opcode byte the fetch sees. -/
def State.opcodeByte (s : State) : Byte := s.mem.read s.pc.toNat

/-- The operand bytes the fetch sees. -/
def State.operandBytes (s : State) : List Byte :=
  (List.range (opTag s.opcodeByte)).map fun k => s.mem.read (s.pc.toNat + 1 + k)

theorem State.fetch_opcode_outside {s : State} (h : 128 ≤ s.pc.toNat) :
    s.fetch = .error { opcode := none, cause := .outOfBounds .memory s.pc.toNat } := by
  simp only [State.fetch, State.memRead_ge h]

theorem State.fetch_operand_outside {s : State} (h : s.pc.toNat < 128)
    (h' : 128 ≤ s.pc.toNat + opTag s.opcodeByte) :
    s.fetch = .error { opcode := some s.opcodeByte, cause := .outOfBounds .memory 128 } := by
  have h1 : s.readBytes (s.pc.toNat + 1) (opTag (s.mem.read s.pc.toNat)) =
      .error (.outOfBounds .memory 128) :=
    State.readBytes_outside (by omega) (by unfold State.opcodeByte at h'; omega)
  simp only [State.fetch, State.memRead_lt h, h1, State.opcodeByte]

theorem State.fetch_inside {s : State} (h' : s.pc.toNat + opTag s.opcodeByte < 128) :
    s.fetch = match decodeInstr s.cfg s.opcodeByte s.operandBytes with
      | none => .error { opcode := some s.opcodeByte, cause := .decodeError }
      | some i => .ok i := by
  have h : s.pc.toNat < 128 := by omega
  have h1 : s.readBytes (s.pc.toNat + 1) (opTag (s.mem.read s.pc.toNat)) = .ok s.operandBytes :=
    State.readBytes_inside (by unfold State.opcodeByte at h'; omega)
  cases hd : decodeInstr s.cfg s.opcodeByte s.operandBytes with
  | none =>
    have hd' : decodeInstr s.cfg (s.mem.read s.pc.toNat) s.operandBytes = none := hd
    simp only [State.fetch, State.memRead_lt h, h1, hd', State.opcodeByte]
  | some i =>
    have hd' : decodeInstr s.cfg (s.mem.read s.pc.toNat) s.operandBytes = some i := hd
    simp only [State.fetch, State.memRead_lt h, h1, hd']

/-- What a fetch that succeeds says: the instruction's bytes lie at PC, inside Memory. -/
theorem State.fetch_ok {s : State} {i : Instr} (h : s.fetch = .ok i) :
    s.pc.toNat + i.op.operandCount < 128 ∧ s.opcodeByte = s.cfg.opcode i.op ∧
    s.operandBytes = i.operands ∧ opTag s.opcodeByte = i.op.operandCount := by
  by_cases h1 : 128 ≤ s.pc.toNat
  · rw [State.fetch_opcode_outside h1] at h; cases h
  · by_cases h2 : 128 ≤ s.pc.toNat + opTag s.opcodeByte
    · rw [State.fetch_operand_outside (by omega) h2] at h; cases h
    · rw [State.fetch_inside (by omega)] at h
      split at h
      · cases h
      · rename_i j hj
        cases h
        obtain ⟨e1, e2, e3⟩ := decodeInstr_some hj
        exact ⟨by omega, e1, e2, e3⟩

/-- What a fetch that fails says: the cause, and the opcode byte when it was fetched (R20). -/
theorem State.fetch_error {s : State} {f : FetchFault} (h : s.fetch = .error f) :
    (128 ≤ s.pc.toNat ∧ f = { opcode := none, cause := .outOfBounds .memory s.pc.toNat }) ∨
    (s.pc.toNat < 128 ∧ 128 ≤ s.pc.toNat + opTag s.opcodeByte ∧
      f = { opcode := some s.opcodeByte, cause := .outOfBounds .memory 128 }) ∨
    (s.pc.toNat + opTag s.opcodeByte < 128 ∧ lookupOp s.cfg s.opcodeByte = none ∧
      f = { opcode := some s.opcodeByte, cause := .decodeError }) := by
  by_cases h1 : 128 ≤ s.pc.toNat
  · rw [State.fetch_opcode_outside h1] at h; cases h; exact .inl ⟨h1, rfl⟩
  · by_cases h2 : 128 ≤ s.pc.toNat + opTag s.opcodeByte
    · rw [State.fetch_operand_outside (by omega) h2] at h; cases h
      exact .inr (.inl ⟨by omega, h2, rfl⟩)
    · rw [State.fetch_inside (by omega)] at h
      split at h
      · rename_i hn
        cases h
        exact .inr (.inr ⟨by omega, (decodeInstr_none (by simp [State.operandBytes])).mp hn, rfl⟩)
      · cases h

/-! ### The step -/

theorem step_running {s : State} (h : s.status = .running) :
    step s = match s.fetch with
      | .error f => .next (s.takeFault f.opcode f.cause)
      | .ok i => exec i s := by
  cases hf : s.fetch <;> simp [step, h, hf]

/-- What a step can do: STATUS was RUNNING, and the fetch or decode took its fault, or the instruction
fetched was executed. -/
theorem step_next {s t : State} (h : step s = .next t) :
    s.status = .running ∧
    ((∃ f, s.fetch = .error f ∧ t = s.takeFault f.opcode f.cause) ∨
     (∃ i, s.fetch = .ok i ∧ exec i s = .next t)) := by
  have hr : s.status = .running := by
    unfold step at h
    split at h
    · cases h
    · cases h
    · assumption
  refine ⟨hr, ?_⟩
  rw [step_running hr] at h
  split at h
  · cases h; exact .inl ⟨_, ‹_›, rfl⟩
  · exact .inr ⟨_, ‹_›, h⟩

end Sys2Proof.Machine
end

