-- ==== Sys2Proof/Machine/Assembly.lean ====
section
/-! DEFINITION. The assembler notation of R69 (spec/30_encoding.md): how an instruction is WRITTEN. No step
depends on it. -/

namespace Sys2Proof.Machine

/-- The mnemonic as the opcode table spells it (R64). -/
def mnemonicName : Op → String
  | .hlt => "HLT"
  | .ret => "RET"
  | .push => "PUSH"
  | .pop => "POP"
  | .prn => "PRN"
  | .call => "CALL"
  | .jmp => "JMP"
  | .jeq => "JEQ"
  | .jne => "JNE"
  | .not => "NOT"
  | .ldi => "LDI"
  | .add => "ADD"
  | .mul => "MUL"
  | .mod => "MOD"
  | .cmp => "CMP"
  | .and => "AND"
  | .or => "OR"
  | .xor => "XOR"
  | .shl => "SHL"
  | .shr => "SHR"
  | .addi => "ADDI"

/-- An immediate, in decimal (R69). -/
def immName (v : Byte) : String := Nat.repr v.toNat

/-- A register, `R0`..`R7` (R69). -/
def regName (r : Byte) : String := "R" ++ Nat.repr r.toNat

/-- The operands as they are written, in operand-byte order (R69). -/
def operandNames : Instr → List String
  | .ldi r imm => [regName r, immName imm]
  | .prn r => [regName r]
  | .hlt => []
  | .mul a b => [regName a, regName b]
  | .add a b => [regName a, regName b]
  | .and a b => [regName a, regName b]
  | .or a b => [regName a, regName b]
  | .xor a b => [regName a, regName b]
  | .not a => [regName a]
  | .shl a b => [regName a, regName b]
  | .shr a b => [regName a, regName b]
  | .mod a b => [regName a, regName b]
  | .push r => [regName r]
  | .pop r => [regName r]
  | .call r => [regName r]
  | .ret => []
  | .cmp a b => [regName a, regName b]
  | .jeq r => [regName r]
  | .jne r => [regName r]
  | .jmp r => [regName r]
  | .addi imm r => [immName imm, regName r]

/-- An instruction in the source's notation: the mnemonic, then comma-separated operands (R69). -/
def asmText (i : Instr) : String :=
  match operandNames i with
  | [] => mnemonicName i.op
  | names => mnemonicName i.op ++ " " ++ String.intercalate "," names

end Sys2Proof.Machine
end

