-- ==== Sys2Proof/Tests/Slice0.lean ====
section
/-! SUPPORT. The model's own tests: the WellFormed smoke, words of spec/30_encoding.md decoded, single steps
whose expected results are the vectors of spec/95_test_vectors.md (V-.., W..), and, for every statement of
Certificates/Slice0/Obligations.lean that has hypotheses, a witness that meets them. -/

namespace Sys2Proof.Tests

open Sys2Proof.Machine

/-! ### Helpers -/

/-- The default parameters with one admissible ADDI byte fixed, as the `<ADDI>` of spec/95_test_vectors.md. -/
def cfg : Config := ⟨defaultOpcodeMap, 0x80#8, 0x80#8, true⟩

/-- The same with the non-fatal underflow policy. -/
def cfgReport : Config := ⟨defaultOpcodeMap, 0x80#8, 0x80#8, false⟩

/-- The same with sentinel 100 (V-S12, V-S13). -/
def cfgLow : Config := ⟨defaultOpcodeMap, 0x80#8, 100#8, true⟩

/-- A launched state: an image from address `pc` on, PC there, R0, R1, R2, R3 and R7 given. -/
def at_ (c : Config) (pc : Nat) (image : List Byte) (r0 r1 r2 r3 r7 : Byte) : State :=
  { State.resetWith c with
    pc := byteOfNat pc
    mem := Memory.place [] pc image
    regs := #v[r0, r1, r2, r3, 0#8, 0#8, 0#8, r7] }

/-- The next state of an outcome. -/
def after : Host.Outcome State Fault Refusal → Option State
  | .next t => some t
  | .fault _ => none
  | .refused _ => none

/-- What one step of a state leaves, seen through `f`. -/
def sees {α : Type} (s : State) (f : State → α) : Option α := (after (step s)).map f

/-- The record of a state that has faulted. -/
def record (s : State) : Option FaultRecord :=
  match s.status with
  | .running => none
  | .halted => none
  | .faulted r => some r

theorem next_of_after {o : Host.Outcome State Fault Refusal} {p : State → Bool}
    (h : (after o).any p = true) : ∃ t, o = .next t ∧ p t = true := by
  cases o with
  | next t => exact ⟨t, rfl, h⟩
  | fault f => cases h
  | refused r => cases h

/-! ### WellFormed: an ill-formed term for each check (R12) -/

theorem test_wf_ldi : (Instr.ldi 8#8 1#8).wellFormed = false := by decide
theorem test_wf_ldi_immediate_unchecked : (Instr.ldi 7#8 255#8).wellFormed = true := by decide
theorem test_wf_first_operand : (Instr.mod 9#8 0#8).wellFormed = false := by decide
theorem test_wf_second_operand : (Instr.mod 0#8 9#8).wellFormed = false := by decide
theorem test_wf_one_register : (Instr.pop 8#8).wellFormed = false := by decide
theorem test_wf_addi_register_second : (Instr.addi 1#8 8#8).wellFormed = false := by decide
theorem test_wf_addi_immediate_unchecked : (Instr.addi 255#8 7#8).wellFormed = true := by decide
theorem test_wf_no_operand : Instr.ret.wellFormed = true := by decide

/-! ### Decoding: one word per constructor, written out from R64 and R180 -/

theorem test_decode_ldi : decodeBytes cfg [0b10000010#8, 3#8, 255#8] = .ok (.ldi 3#8 255#8, []) := by rfl
theorem test_decode_prn : decodeBytes cfg [0b01000111#8, 2#8] = .ok (.prn 2#8, []) := by rfl
theorem test_decode_hlt : decodeBytes cfg [0b00000001#8] = .ok (.hlt, []) := by rfl
theorem test_decode_mul : decodeBytes cfg [0b10100010#8, 0#8, 1#8] = .ok (.mul 0#8 1#8, []) := by rfl
theorem test_decode_add : decodeBytes cfg [0b10100000#8, 0#8, 1#8] = .ok (.add 0#8 1#8, []) := by rfl
theorem test_decode_and : decodeBytes cfg [0b10101000#8, 0#8, 1#8] = .ok (.and 0#8 1#8, []) := by rfl
theorem test_decode_or : decodeBytes cfg [0b10101010#8, 0#8, 1#8] = .ok (.or 0#8 1#8, []) := by rfl
theorem test_decode_xor : decodeBytes cfg [0b10101011#8, 0#8, 1#8] = .ok (.xor 0#8 1#8, []) := by rfl
theorem test_decode_not : decodeBytes cfg [0b01101001#8, 5#8] = .ok (.not 5#8, []) := by rfl
theorem test_decode_shl : decodeBytes cfg [0b10101100#8, 0#8, 1#8] = .ok (.shl 0#8 1#8, []) := by rfl
theorem test_decode_shr : decodeBytes cfg [0b10101101#8, 0#8, 1#8] = .ok (.shr 0#8 1#8, []) := by rfl
theorem test_decode_mod : decodeBytes cfg [0b10100100#8, 0#8, 1#8] = .ok (.mod 0#8 1#8, []) := by rfl
theorem test_decode_push : decodeBytes cfg [0b01000101#8, 7#8] = .ok (.push 7#8, []) := by rfl
theorem test_decode_pop : decodeBytes cfg [0b01000110#8, 7#8] = .ok (.pop 7#8, []) := by rfl
theorem test_decode_call : decodeBytes cfg [0b01010000#8, 1#8] = .ok (.call 1#8, []) := by rfl
theorem test_decode_ret : decodeBytes cfg [0b00010001#8] = .ok (.ret, []) := by rfl
theorem test_decode_cmp : decodeBytes cfg [0b10100111#8, 0#8, 1#8] = .ok (.cmp 0#8 1#8, []) := by rfl
theorem test_decode_jeq : decodeBytes cfg [0b01010101#8, 3#8] = .ok (.jeq 3#8, []) := by rfl
theorem test_decode_jne : decodeBytes cfg [0b01010110#8, 3#8] = .ok (.jne 3#8, []) := by rfl
theorem test_decode_jmp : decodeBytes cfg [0b01010100#8, 3#8] = .ok (.jmp 3#8, []) := by rfl
/-- The immediate of ADDI is the FIRST operand byte (R180). -/
theorem test_decode_addi : decodeBytes cfg [0b10000000#8, 10#8, 2#8] = .ok (.addi 10#8 2#8, []) := by rfl
/-- The bytes after the instruction are left. -/
theorem test_decode_rest : decodeBytes cfg [0x47#8, 0#8, 0x01#8] = .ok (.prn 0#8, [0x01#8]) := by rfl
theorem test_reject_empty : decodeBytes cfg [] = .error .noOpcode := by rfl
theorem test_reject_undefined : decodeBytes cfg [0x00#8] = .error (.undefinedOpcode 0x00#8) := by rfl
/-- A missing operand is found before an undefined byte (R71). -/
theorem test_reject_missing : decodeBytes cfg [0xC5#8, 0#8] = .error (.missingOperand 0xC5#8) := by rfl
theorem test_encode_ldi : encode cfg (.ldi 3#8 255#8) = [0x82#8, 3#8, 255#8] := by decide
theorem test_encode_addi : encode cfg (.addi 10#8 2#8) = [0x80#8, 10#8, 2#8] := by decide
/-- The opcode table's numbering: bits 7..0 are the first byte, and it evaluates with ADDI's byte free. -/
theorem test_table_word : decodeTableWord 24 0x0201A4 = some (.mod 0x01#8 0x02#8) := by rfl
theorem test_table_word_short : decodeTableWord 8 0x01 = some .hlt := by rfl
/-- 54 bytes are admissible for ADDI beside the default map, and the parameters after reset are admissible
whichever of them is the free value (R68). -/
theorem test_admissible_addi : (admissibleAddi defaultOpcodeMap).length = 54 := by decide
theorem test_reset_admissible : State.reset.cfg.Admissible := defaultConfig_admissible

/-! ### Fetch, decode and the priority of faults -/

/-- V-D1, W8: the zero byte after reset is a decode error, in the machine with ADDI's byte free. -/
theorem test_vd1 : sees State.reset record = some (some ⟨.decodeError, 0#8, some 0x00#8⟩) := by decide
/-- V-D2: LDI's low bits with tag 0. -/
theorem test_vd2 : sees (at_ cfg 0 [0x02#8] 0 0 0 0 0) record =
    some (some ⟨.decodeError, 0#8, some 0x02#8⟩) := by decide
/-- V-D4: the operand fetch at 128 comes before the decode. -/
theorem test_vd4 : sees (at_ cfg 126 [0xFF#8] 0 0 0 0 0) record =
    some (some ⟨.outOfBounds .memory 128, 126#8, some 0xFF#8⟩) := by decide
/-- V-D6: no opcode byte. -/
theorem test_vd6 : sees (at_ cfg 128 [] 0 0 0 0 0) record =
    some (some ⟨.outOfBounds .memory 128, 128#8, none⟩) := by decide
/-- V-P4: the register check comes before StackUnderflow. -/
theorem test_vp4 : sees (at_ cfg 0 [0x46#8, 8#8] 0 0 0 0 128#8) record =
    some (some ⟨.outOfBounds .register 8, 0#8, some 0x46#8⟩) := by decide
/-- V-P5: an undefined byte with tag 11 whose operand bytes exist. -/
theorem test_vp5 : sees (at_ cfg 0 [0xC0#8] 0 0 0 0 0) record =
    some (some ⟨.decodeError, 0#8, some 0xC0#8⟩) := by decide
/-- R19: no step after HALTED or FAULTED. -/
theorem test_halted_stops : step { State.reset with status := .halted } = .fault .halted := by rfl
/-- R200: the code of the cause a step recorded. -/
theorem test_code : sees State.reset (fun t => t.status.code) = some (some 1) := by decide

/-! ### One step of each instruction -/

/-- V-L1. -/
theorem test_ldi : sees (at_ cfg 0 [0x82#8, 3#8, 255#8] 0 0 0 0 0) (fun t => (t.reg 3, t.pc)) =
    some (255#8, 3#8) := by decide
/-- V-L3. -/
theorem test_ldi_no_register : sees (at_ cfg 0 [0x82#8, 8#8, 1#8] 0 0 0 0 0) record =
    some (some ⟨.outOfBounds .register 8, 0#8, some 0x82#8⟩) := by decide
/-- V-L4. -/
theorem test_prn : sees (at_ cfg 5 [0x47#8, 2#8] 0 0 255#8 0 0) (fun t => (t.out, t.pc)) =
    some ([255#8], 7#8) := by decide
/-- V-D8. -/
theorem test_hlt : sees (at_ cfg 10 [0x01#8] 0 0 0 0 0) (fun t => (t.status, t.pc)) =
    some (.halted, 11#8) := by decide
/-- V-A4. -/
theorem test_mul : sees (at_ cfg 0 [0xA2#8, 0#8, 1#8] 200#8 2#8 0 0 0) (fun t => (t.reg 0, t.reg 1)) =
    some (144#8, 2#8) := by decide
/-- V-A5. -/
theorem test_mul_high_lost : sees (at_ cfg 0 [0xA2#8, 0#8, 1#8] 255#8 255#8 0 0 0) (fun t => t.reg 0) =
    some 1#8 := by decide
/-- V-A1. -/
theorem test_add : sees (at_ cfg 0 [0xA0#8, 0#8, 1#8] 250#8 10#8 0 0 0) (fun t => (t.reg 0, t.reg 1)) =
    some (4#8, 10#8) := by decide
/-- V-A23: both operands are read before the write. -/
theorem test_add_same : sees (at_ cfg 0 [0xA0#8, 0#8, 0#8] 200#8 0 0 0 0) (fun t => t.reg 0) =
    some 144#8 := by decide
/-- V-A7. -/
theorem test_and : sees (at_ cfg 0 [0xA8#8, 0#8, 1#8] 0xF0#8 0x3C#8 0 0 0) (fun t => t.reg 0) =
    some 0x30#8 := by decide
/-- V-A8. -/
theorem test_or : sees (at_ cfg 0 [0xAA#8, 0#8, 1#8] 0xF0#8 0x0F#8 0 0 0) (fun t => t.reg 0) =
    some 0xFF#8 := by decide
/-- V-A9. -/
theorem test_xor : sees (at_ cfg 0 [0xAB#8, 0#8, 1#8] 0xFF#8 0x0F#8 0 0 0) (fun t => t.reg 0) =
    some 0xF0#8 := by decide
/-- V-A10, and PC + 2. -/
theorem test_not : sees (at_ cfg 0 [0x69#8, 0#8] 0x0F#8 0 0 0 0) (fun t => (t.reg 0, t.pc)) =
    some (0xF0#8, 2#8) := by decide
/-- V-A13. -/
theorem test_shl : sees (at_ cfg 0 [0xAC#8, 0#8, 1#8] 0x01#8 7#8 0 0 0) (fun t => t.reg 0) =
    some 0x80#8 := by decide
/-- V-A14. -/
theorem test_shl_eight : sees (at_ cfg 0 [0xAC#8, 0#8, 1#8] 0xFF#8 8#8 0 0 0) (fun t => t.reg 0) =
    some 0x00#8 := by decide
/-- V-A17: zero enters. -/
theorem test_shr : sees (at_ cfg 0 [0xAD#8, 0#8, 1#8] 0x81#8 1#8 0 0 0) (fun t => t.reg 0) =
    some 0x40#8 := by decide
/-- V-A18. -/
theorem test_shr_large : sees (at_ cfg 0 [0xAD#8, 0#8, 1#8] 0xFF#8 200#8 0 0 0) (fun t => t.reg 0) =
    some 0x00#8 := by decide
/-- V-A19. -/
theorem test_mod : sees (at_ cfg 0 [0xA4#8, 0#8, 1#8] 17#8 5#8 0 0 0) (fun t => t.reg 0) =
    some 2#8 := by decide
/-- V-A22. -/
theorem test_mod_zero : sees (at_ cfg 0 [0xA4#8, 0#8, 1#8] 9#8 0 0 0 0) (fun t => (record t, t.reg 0)) =
    some (some ⟨.divideByZero 1, 0#8, some 0xA4#8⟩, 9#8) := by decide
/-- V-S1: SP = 0 starts from the sentinel. -/
theorem test_push : sees (at_ cfg 0 [0x45#8, 0#8] 42#8 0 0 0 0)
    (fun t => (t.reg 7, t.mem.read 127, t.pc)) = some (127#8, 42#8, 2#8) := by decide
/-- V-S3: PUSH R7 pushes the decremented SP. -/
theorem test_push_sp : sees (at_ cfg 0 [0x45#8, 7#8] 0 0 0 0 128#8)
    (fun t => (t.reg 7, t.mem.read 127)) = some (127#8, 127#8) := by decide
/-- V-S6: the popped cell is not cleared. -/
theorem test_pop : sees (at_ cfg 125 [0x46#8, 1#8, 42#8] 0 0 0 0 127#8)
    (fun t => (t.reg 1, t.reg 7, t.mem.read 127)) = some (42#8, 128#8, 42#8) := by decide
/-- V-S10: POP R7 leaves the popped byte plus 1. -/
theorem test_pop_sp : sees (at_ cfg 125 [0x46#8, 7#8, 9#8] 0 0 0 0 127#8) (fun t => t.reg 7) =
    some 10#8 := by decide
/-- V-C1. -/
theorem test_call : sees (at_ cfg 6 [0x50#8, 1#8] 0 11#8 0 0 0)
    (fun t => (t.mem.read 127, t.reg 7, t.pc)) = some (8#8, 127#8, 11#8) := by decide
/-- V-C16: the pushed byte overwrites the CALL's own operand. -/
theorem test_call_overwrites : sees (at_ cfg 126 [0x50#8, 2#8] 0 0 126#8 0 0)
    (fun t => (t.mem.read 127, t.pc)) = some (128#8, 126#8) := by decide
/-- V-C2. -/
theorem test_ret : sees (at_ cfg 126 [0x11#8, 8#8] 0 0 0 0 127#8) (fun t => (t.pc, t.reg 7)) =
    some (8#8, 128#8) := by decide
/-- V-C19: the non-fatal policy. -/
theorem test_ret_report : sees (at_ cfgReport 4 [0x11#8] 0 0 0 0 128#8)
    (fun t => (t.diag, t.pc, t.reg 7)) =
    some ([⟨.stackUnderflow, 4#8, 128#8⟩], 5#8, 128#8) := by decide
/-- V-C3. -/
theorem test_cmp : sees (at_ cfg 0 [0xA7#8, 0#8, 1#8] 3#8 5#8 0 0 0) (fun t => (t.fl, t.pc)) =
    some (.less, 3#8) := by decide
/-- V-C6: unsigned. -/
theorem test_cmp_unsigned : sees (at_ cfg 0 [0xA7#8, 0#8, 1#8] 0x80#8 0x7F#8 0 0 0) (fun t => t.fl) =
    some .greater := by decide
/-- V-C7. -/
theorem test_jeq : sees (at_ cfg 20 [0x55#8, 3#8] 0 0 0 12#8 0) (fun t => t.pc) = some 12#8 := by decide
/-- V-C13: the register is checked although the jump is not taken. -/
theorem test_jeq_checks : sees { at_ cfg 3 [0x55#8, 9#8] 0 0 0 0 0 with fl := .less } record =
    some (some ⟨.outOfBounds .register 9, 3#8, some 0x55#8⟩) := by decide
/-- V-C9. -/
theorem test_jne : sees { at_ cfg 20 [0x56#8, 3#8] 0 0 0 12#8 0 with fl := .greater } (fun t => t.pc) =
    some 12#8 := by decide
/-- V-C10. -/
theorem test_jne_not_taken : sees (at_ cfg 20 [0x56#8, 3#8] 0 0 0 12#8 0) (fun t => t.pc) =
    some 22#8 := by decide
/-- V-C12: a target outside Memory is taken. -/
theorem test_jmp : sees (at_ cfg 9 [0x54#8, 0#8] 200#8 0 0 0 0) (fun t => (t.pc, t.status)) =
    some (200#8, .running) := by decide
/-- V-I1. -/
theorem test_addi : sees (at_ cfg 0 [0x80#8, 10#8, 2#8] 0 0 250#8 0 0) (fun t => (t.reg 2, t.pc)) =
    some (4#8, 3#8) := by decide
/-- V-I5: ADDI moves SP. -/
theorem test_addi_sp : sees (at_ cfg 0 [0x80#8, 1#8, 7#8] 0 0 0 0 127#8) (fun t => t.reg 7) =
    some 128#8 := by decide

/-! ### The rest of the machine -/

/-- V-S4: a Push outside Memory raises and SP stays. -/
theorem test_push_outside : sees (at_ cfg 0 [0x45#8, 0#8] 42#8 0 0 0 200#8)
    (fun t => (record t, t.reg 7)) =
    some (some ⟨.outOfBounds .memory 199, 0#8, some 0x45#8⟩, 200#8) := by decide
/-- V-S9: SP = 0 is no underflow. -/
theorem test_pop_at_zero : sees (at_ cfg 0 [0x46#8, 0#8] 0 0 0 0 0) (fun t => (t.reg 0, t.reg 7)) =
    some (70#8, 1#8) := by decide
/-- V-S7. -/
theorem test_pop_empty : sees (at_ cfg 0 [0x46#8, 1#8] 0 0 0 0 128#8) record =
    some (some ⟨.stackUnderflow 128#8, 0#8, some 0x46#8⟩) := by decide
/-- V-S12: another sentinel. -/
theorem test_push_sentinel : sees (at_ cfgLow 0 [0x45#8, 0#8] 5#8 0 0 0 0)
    (fun t => (t.reg 7, t.mem.read 99)) = some (99#8, 5#8) := by decide
/-- R232: an image too long is refused. -/
theorem test_preload_refuses : launch cfg (List.replicate 129 0x01#8) = none := by
  simp [launch, State.preload]
/-- The first step after reset runs the instruction placed at PC. -/
theorem test_with_fetch_word :
    sees (State.reset.withFetchWord 24 0x050082) (fun t => (t.reg 0, t.pc)) = some (5#8, 3#8) := by decide
/-- R69: the source's own notation, and ADDI's by its table order. -/
theorem test_asm_ldi : asmText (.ldi 0#8 5#8) = "LDI R0,5" := by decide
theorem test_asm_addi : asmText (.addi 10#8 2#8) = "ADDI 10,R2" := by decide
theorem test_asm_hlt : asmText .hlt = "HLT" := by decide

/-! ### Witnesses: the hypotheses of each statement can be met -/

theorem witness_admissible : cfg.Admissible ∧ cfgReport.Admissible ∧ cfgLow.Admissible := by decide

/-- DecodedBytesAreTheEncoding, LengthIsToldByTheTag. -/
theorem witness_decodes : decodeBytes cfg [0xA4#8, 1#8, 2#8, 0#8] = .ok (.mod 1#8 2#8, [0#8]) ∧
    decodeBytes cfg [0xA4#8, 1#8] = .error (.missingOperand 0xA4#8) := ⟨rfl, rfl⟩

/-- UndefinedBytesRaiseDecodeError: both clauses about bytes, and the step clause at the last address where
the operand bytes still fit. -/
theorem witness_undefined : undefinedByte cfg 0x00#8 = true ∧ undefinedByte cfg 0xC0#8 = true ∧
    (at_ cfg 124 [0xC0#8] 0 0 0 0 0).status = .running ∧
    (at_ cfg 124 [0xC0#8] 0 0 0 0 0).mem.read 124 = 0xC0#8 ∧ 124 + 0xC0 / 64 < 128 := by decide

/-- DispatchIsOnTheFullByte: LDI's low six bits under tag 0. -/
theorem witness_full_byte : decodeInstr cfg 0x82#8 [3#8, 4#8] = some (.ldi 3#8 4#8) ∧
    (0x02#8 : Byte).toNat % 64 = (cfg.opcode .ldi).toNat % 64 ∧ 0x02#8 ≠ cfg.opcode .ldi ∧
    0x02#8 ≠ cfg.addiOpcode ∧ cfg.opcodeMap = defaultOpcodeMap := by decide

/-- StepRunsTheDecodedInstruction: an instruction that ends at the last address. -/
theorem witness_step_runs : ∀ k (h : k < (encode cfg (.ldi 3#8 255#8)).length),
    125 + k < 128 ∧ (at_ cfg 125 [0x82#8, 3#8, 255#8] 0 0 0 0 0).mem.read (125 + k) =
      (encode cfg (.ldi 3#8 255#8))[k] := by decide

/-- FetchFaultsComeBeforeDecode, and FetchIsBounded in the instruction rules: PC = 128; PC = 127 with one
operand byte, PC = 126 with two, each just past the end. -/
theorem witness_fetch_faults : 128 ≤ (at_ cfg 128 [] 0 0 0 0 0).pc.toNat ∧
    (at_ cfg 127 [0x47#8] 0 0 0 0 0).mem.read 127 = cfg.opcode .prn ∧
    128 ≤ 127 + (cfg.opcode .prn).toNat / 64 ∧
    (at_ cfg 126 [0x82#8] 0 0 0 0 0).mem.read 126 = cfg.opcode .ldi ∧
    128 ≤ 126 + (cfg.opcode .ldi).toNat / 64 := by decide

/-- RegisterOperandsAreCheckedFirst, ChecksRegister and ChecksRegisters: the first index that does not exist,
and the largest. -/
theorem witness_register_check :
    (Instr.mod 8#8 9#8).regOperands.find? (fun r => decide (8 ≤ r.toNat)) = some 8#8 ∧
    (Instr.mod 7#8 255#8).regOperands.find? (fun r => decide (8 ≤ r.toNat)) = some 255#8 ∧
    (Instr.pop 8#8).regOperands.find? (fun r => decide (8 ≤ r.toNat)) = some 8#8 := by decide

/-- FaultsArePrecise, and InvariantIsKeptByEveryStep where a fault is taken: the step from reset faults. -/
theorem witness_faults : ∃ t, step State.reset = .next t ∧ (record t).isSome = true :=
  next_of_after (by decide)

/-- OnlyHltHalts: a step that halts. -/
theorem witness_halts : ∃ t, step (at_ cfg 127 [0x01#8] 0 0 0 0 0) = .next t ∧
    decide (t.status = .halted) = true := next_of_after (by decide)

/-- CausesBelongToTheirInstructions: every cause an instruction raises, at the boundary of its range. -/
theorem witness_causes :
    (∃ t, exec (.prn 8#8) (at_ cfg 0 [] 0 0 0 0 0) = .next t ∧ (record t).isSome = true) ∧
    (∃ t, exec (.push 0#8) (at_ cfg 0 [] 0 0 0 0 129#8) = .next t ∧ (record t).isSome = true) ∧
    (∃ t, exec (.pop 0#8) (at_ cfg 0 [] 0 0 0 0 129#8) = .next t ∧ (record t).isSome = true) ∧
    (∃ t, exec .ret (at_ cfg 0 [] 0 0 0 0 128#8) = .next t ∧ (record t).isSome = true) ∧
    (∃ t, exec (.mod 0#8 1#8) (at_ cfg 0 [] 9#8 0 0 0 0) = .next t ∧ (record t).isSome = true) :=
  ⟨next_of_after (by decide), next_of_after (by decide), next_of_after (by decide),
    next_of_after (by decide), next_of_after (by decide)⟩

/-- InvariantIsKeptByEveryStep and ParametersNeverChange: a state that meets the invariant and stores. -/
theorem witness_invariant : (at_ cfg 0 [0x45#8, 0#8] 42#8 0 0 0 0).Inv ∧
    ∃ t, step (at_ cfg 0 [0x45#8, 0#8] 42#8 0 0 0 0) = .next t ∧
      decide (t.mem.read 127 = 42#8) = true :=
  ⟨⟨by decide, (by intro r h; cases h), fun _ => rfl⟩, next_of_after (by decide)⟩

/-- InvariantHoldsAtReset and LaunchPlacesTheImage: images of 0, 128 and 129 bytes. -/
theorem witness_launch : (launch cfg []).isSome = true ∧
    (launch cfg (List.replicate 128 0x01#8)).isSome = true ∧
    (launch cfg (List.replicate 129 0x01#8)).isSome = false := by
  simp [launch, State.preload]

/-- ReachableStatesMeetTheInvariant: a launched state, and the state after its first step. -/
theorem witness_reachable : ∃ t, Reachable cfg [0x47#8, 0#8] t ∧ decide (t.out = [0#8]) = true := by
  obtain ⟨t, h, ht⟩ := next_of_after
    (o := step { State.resetWith cfg with mem := Memory.place [] 0 [0x47#8, 0#8] })
    (p := fun t => decide (t.out = [0#8])) (by decide)
  exact ⟨t, .stepped (.launched rfl) h, ht⟩

/-- OnlyCmpWritesTheFlag: a step after which FL differs. -/
theorem witness_flag_written : ∃ t, step (at_ cfg 0 [0xA7#8, 0#8, 1#8] 3#8 5#8 0 0 0) = .next t ∧
    decide (t.fl ≠ .equal) = true := next_of_after (by decide)

/-- OnlyPrnEmits: a step that emits. -/
theorem witness_emits : ∃ t, step (at_ cfg 0 [0x47#8, 0#8] 3#8 0 0 0 0) = .next t ∧
    decide (t.out = [3#8]) = true := next_of_after (by decide)

/-- OnlyPushAndCallStore: a step after which a cell differs, at the top and at the bottom of Memory. -/
theorem witness_stores : (∃ t, step (at_ cfg 0 [0x45#8, 0#8] 42#8 0 0 0 0) = .next t ∧
      decide (t.mem.read 127 ≠ 0#8) = true) ∧
    (∃ t, step (at_ cfg 2 [0x50#8, 0#8] 42#8 0 0 0 1#8) = .next t ∧
      decide (t.mem.read 0 ≠ 0#8) = true) :=
  ⟨next_of_after (by decide), next_of_after (by decide)⟩

/-- OnlyNonFatalUnderflowReports, and the non-fatal half of EmptyStackFollowsThePolicy and PoppingFormsFrame:
a step that reports. -/
theorem witness_reports : cfgReport.underflowFatal = false ∧
    ∃ t, step (at_ cfgReport 5 [0x46#8, 1#8] 0 0 0 0 128#8) = .next t ∧
      decide (t.diag = [⟨.stackUnderflow, 5#8, 128#8⟩]) = true :=
  ⟨rfl, next_of_after (by decide)⟩

/-- EmptyStackFollowsThePolicy, the fatal half: SP at the sentinel. -/
theorem witness_empty_fatal : (at_ cfg 0 [] 0 0 0 0 128#8).sp = cfg.stackSentinel ∧
    cfg.underflowFatal = true := by decide

/-- FlagOrderIsUnobservable: two states that differ only in GREATER and LESS, and are not equal. -/
theorem witness_same_up_to_order :
    SameUpToOrder { at_ cfg 0 [0x56#8, 3#8] 0 0 0 12#8 0 with fl := .greater }
      { at_ cfg 0 [0x56#8, 3#8] 0 0 0 12#8 0 with fl := .less } :=
  ⟨rfl, by decide⟩

/-- StreamsAreUnobservable, PcAdvancesPastTheInstruction: a step that does not fault, ending at the last
address. -/
theorem witness_advances : ∃ t, step (at_ cfg 125 [0x82#8, 3#8, 255#8] 0 0 0 0 0) = .next t ∧
    decide (t.status = .running ∧ t.pc = 128#8) = true := next_of_after (by decide)

/-- The instruction rules: the largest index that names a register. -/
theorem witness_last_register : (7#8 : Byte).toNat < 8 ∧ (Instr.mod 7#8 7#8).wellFormed = true := by decide

/-- ShiftsUseTheWholeAmount, the clause on large amounts: the smallest. -/
theorem witness_large_amount : 8 ≤ (at_ cfg 0 [] 0xFF#8 8#8 0 0 0).regs[1].toNat ∧
    ∃ t, exec (.shl 0#8 1#8) (at_ cfg 0 [] 0xFF#8 8#8 0 0 0) = .next t ∧
      decide (t.reg 0 = 0#8) = true := ⟨by decide, next_of_after (by decide)⟩

/-- JmpJumps: a JMP to its own address. -/
theorem witness_self_jump : (at_ cfg 9 [0x54#8, 0#8] 9#8 0 0 0 0).regs[0] =
    (at_ cfg 9 [0x54#8, 0#8] 9#8 0 0 0 0).pc := by decide

/-- PushStoresBelowSp and CallPushesTheReturnAddress: an SP of 0, of 128, the last whose Push is inside, and
of 129, the first whose Push is outside. -/
theorem witness_push_sp : (at_ cfg 0 [] 0 0 0 0 0).pushSp = 127#8 ∧
    (at_ cfg 0 [] 0 0 0 0 128#8).pushSp = 127#8 ∧ (at_ cfg 0 [] 0 0 0 0 129#8).pushSp = 128#8 := by decide

/-- PopLoadsFromSp and RetResumesAtThePoppedByte: an SP of 0, of 127, the last inside, and of 129, outside and
not the sentinel. -/
theorem witness_pop_sp : (at_ cfg 0 [] 0 0 0 0 0).sp ≠ cfg.stackSentinel ∧
    (at_ cfg 0 [] 0 0 0 0 127#8).sp ≠ cfg.stackSentinel ∧
    (at_ cfg 0 [] 0 0 0 0 129#8).sp ≠ cfg.stackSentinel ∧
    (at_ cfg 0 [] 0 0 0 0 127#8).sp.toNat < 128 ∧ 128 ≤ (at_ cfg 0 [] 0 0 0 0 129#8).sp.toNat := by decide

/-- PushThenPopRoundTrips and CallThenRetRoundTrips: both ends of the initialised range, and SP = 0. -/
theorem witness_round_trip : 1 ≤ (at_ cfg 0 [] 0 0 0 0 1#8).sp.toNat ∧
    (at_ cfg 0 [] 0 0 0 0 1#8).sp - 1#8 ≠ cfg.stackSentinel ∧
    (at_ cfg 0 [] 0 0 0 0 128#8).sp.toNat ≤ 128 ∧
    (at_ cfg 0 [] 0 0 0 0 128#8).sp - 1#8 ≠ cfg.stackSentinel ∧
    (at_ cfg 0 [] 0 0 0 0 0).sp = 0#8 := by decide

/-- CallThenRetRoundTrips: a subroutine that leaves SP and its cell alone exists (the callee's first state). -/
theorem witness_call_returns : ∃ t, exec (.call 1#8) (at_ cfg 6 [0x50#8, 1#8] 0 11#8 0 0 0) = .next t ∧
    decide (t.mem.read t.sp.toNat = 8#8) = true := next_of_after (by decide)

/-- PushesFillDownwardAndWrap: SP at the sentinel, with a sentinel of 1, the smallest. -/
theorem witness_pushes : (⟨defaultOpcodeMap, 0x80#8, 1#8, true⟩ : Config).Admissible ∧
    (at_ ⟨defaultOpcodeMap, 0x80#8, 1#8, true⟩ 0 [] 0 0 0 0 1#8).sp = 1#8 := by decide

/-- The frames: for each group, an instruction of it that completes and changes what it may. -/
theorem witness_frames :
    (destReg (.add 0#8 1#8) = some 0#8 ∧
      ∃ t, exec (.add 0#8 1#8) (at_ cfg 0 [] 1#8 2#8 0 0 0) = .next t ∧ decide (t.reg 0 = 3#8) = true) ∧
    (∃ t, exec (.push 0#8) (at_ cfg 0 [] 1#8 0 0 0 0) = .next t ∧ decide (t.reg 7 = 127#8) = true) ∧
    (∃ t, exec (.pop 1#8) (at_ cfg 0 [9#8] 0 0 0 0 0) = .next t ∧ decide (t.reg 1 = 9#8) = true) ∧
    (∃ t, exec (.cmp 0#8 1#8) (at_ cfg 0 [] 1#8 0 0 0 0) = .next t ∧ decide (t.fl = .greater) = true) :=
  ⟨⟨rfl, next_of_after (by decide)⟩, next_of_after (by decide), next_of_after (by decide),
    next_of_after (by decide)⟩

end Sys2Proof.Tests
end

/-! ### Undefined opcode bytes (R66) -/

namespace Sys2Proof

theorem Op.operandCount_eq_zero {o : Op} : o.operandCount = 0 ↔ o = .hlt ∨ o = .ret := by
  cases o <;> decide

/-- A byte that is in no row is not found. -/
theorem lookupOp_eq_none_of_ne {c : Config} {op : Byte} (h : ∀ o, c.opcode o ≠ op) :
    lookupOp c op = none := by
  cases hl : lookupOp c op with
  | none => rfl
  | some o => exact absurd (lookupOp_some hl).2 (h o)

/-- The byte values that lie in a list of distinct bytes are as many as the list is long. -/
theorem countP_range_mem {l : List Byte} (hl : l.Nodup) :
    (List.range 256).countP (fun n => decide (BitVec.ofNat 8 n ∈ l)) = l.length := by
  have hperm : ((List.range 256).filter fun n => decide (BitVec.ofNat 8 n ∈ l)).Perm
      (l.map BitVec.toNat) := by
    refine (List.perm_ext_iff_of_nodup (List.nodup_range.filter _)
      (hl.map fun _ _ => BitVec.eq_of_toNat_eq)).mpr fun n => ?_
    simp only [List.mem_filter, List.mem_range, decide_eq_true_eq, List.mem_map]
    constructor
    · rintro ⟨hn, hmem⟩
      exact ⟨_, hmem, (BitVec.toNat_ofNat ..).trans (Nat.mod_eq_of_lt hn)⟩
    · rintro ⟨b, hb, rfl⟩
      exact ⟨b.isLt, by rwa [BitVec.ofNat_toNat, BitVec.setWidth_eq]⟩
  rw [List.countP_eq_length_filter, hperm.length_eq, List.length_map]

end Sys2Proof

namespace Sys2Proof.Machine

theorem undefinedByte_iff {c : Config} {b : Byte} :
    undefinedByte c b = true ↔ ∀ o, c.opcode o ≠ b := by
  simp [undefinedByte, Op.mem_all]

theorem undefinedByte_eq_not_mem (c : Config) (b : Byte) :
    undefinedByte c b = !decide (b ∈ Op.all.map c.opcode) := by
  rw [Bool.eq_iff_iff, undefinedByte_iff]
  simp [Op.mem_all]

/-- The 21 rows have distinct bytes, so the other 235 of the 256 byte values are undefined. -/
theorem length_filter_undefinedByte {c : Config} (hc : c.Admissible) :
    ((List.range 256).filter fun n => undefinedByte c (BitVec.ofNat 8 n)).length = 235 := by
  obtain ⟨-, hnodup, -⟩ := hc
  have hdefined := countP_range_mem hnodup
  have hsplit := List.length_eq_countP_add_countP
    (fun n => decide (BitVec.ofNat 8 n ∈ Op.all.map c.opcode)) (l := List.range 256)
  have hrows : (Op.all.map c.opcode).length = 21 := by simp [Op.all]
  simp only [List.length_range, decide_not, Bool.decide_eq_true] at hsplit
  simp only [← List.countP_eq_length_filter, undefinedByte_eq_not_mem]
  omega

/-- No row has three operand bytes. -/
theorem undefinedByte_of_tag_three {c : Config} (hc : c.Admissible) {b : Byte} (hb : opTag b = 3) :
    undefinedByte c b = true := by
  refine undefinedByte_iff.mpr fun o ho => ?_
  have htag := hc.1 o (Op.mem_all o)
  have hle := o.operandCount_le
  rw [ho, hb] at htag
  omega

/-- The rows without operands are HLT and RET, and the default map gives neither the byte 0x00. -/
theorem undefinedByte_zero {c : Config} (hc : c.Admissible) (hmap : c.opcodeMap = defaultOpcodeMap) :
    undefinedByte c 0x00#8 = true := by
  refine undefinedByte_iff.mpr fun o ho => ?_
  have htag := hc.1 o (Op.mem_all o)
  rw [ho] at htag
  rcases Op.operandCount_eq_zero.mp htag.symm with rfl | rfl
  · simp [Config.opcode, hmap, defaultOpcodeMap] at ho
  · simp [Config.opcode, hmap, defaultOpcodeMap] at ho

/-- An undefined byte whose operand bytes lie in Memory is fetched, and its decode fails. -/
theorem State.fetch_undefined {s : State} (hin : s.pc.toNat + opTag s.opcodeByte < 128)
    (hund : undefinedByte s.cfg s.opcodeByte = true) :
    s.fetch = .error { opcode := some s.opcodeByte, cause := .decodeError } := by
  have hlen : s.operandBytes.length = opTag s.opcodeByte := by simp [State.operandBytes]
  have hdec : decodeInstr s.cfg s.opcodeByte s.operandBytes = none :=
    (decodeInstr_none hlen).mpr (lookupOp_eq_none_of_ne (undefinedByte_iff.mp hund))
  rw [State.fetch_inside hin, hdec]

theorem step_fetch_error {s : State} {f : FetchFault} (hrun : s.status = .running)
    (hf : s.fetch = .error f) : step s = .next (s.takeFault f.opcode f.cause) := by
  rw [step_running hrun, hf]

/-- Settles O3: the undefined bytes are counted as the complement of the 21 distinct rows; the step's fetch
fails in the decode. -/
theorem undefinedBytesRaiseDecodeError : Obligations.UndefinedBytesRaiseDecodeError := by
  refine ⟨fun c hc => ⟨length_filter_undefinedByte hc, fun b hb => undefinedByte_of_tag_three hc hb,
    undefinedByte_zero hc⟩, ?_, rfl⟩
  rintro s op hrun rfl hin hund
  exact step_fetch_error hrun (State.fetch_undefined hin hund)

end Sys2Proof.Machine

/-! ### Terms of the instruction rules: encoding, register check, fetch faults -/

namespace Sys2Proof

/-- The default map (R64) gives 20 of the mnemonics distinct bytes with the right tags. ADDI's byte is open
(R68), but its row is the last that is looked at. -/
theorem lookupOp_defaultMap {c : Config} (hmap : c.opcodeMap = defaultOpcodeMap) {o : Op} (ho : o ≠ .addi) :
    lookupOp c (c.opcode o) = some o := by
  obtain ⟨m, addi, sentinel, fatal⟩ := c
  subst hmap
  cases o with
  | addi => exact absurd rfl ho
  | _ => simp [lookupOp, Op.all, Config.opcode, defaultOpcodeMap, Op.operandCount, opTag]

/-- An opcode byte that is looked up as the instruction's mnemonic, with the instruction's operand bytes
behind it, decodes to the instruction and leaves no byte. -/
theorem decodeBytes_encode_of_lookupOp {c : Config} {i : Instr}
    (h : lookupOp c (c.opcode i.op) = some i.op) : decodeBytes c (encode c i) = .ok (i, []) := by
  have hlen : i.operands.length = opTag (c.opcode i.op) := by
    rw [Instr.operands_length, (lookupOp_some h).1]
  have hdec : decodeInstr c (c.opcode i.op) i.operands = some i := by
    simp only [decodeInstr, h]
    exact assembleInstr_eq_some.mpr ⟨rfl, rfl⟩
  simp only [decodeBytes, encode, ← hlen, Nat.lt_irrefl, if_false, List.take_length, List.drop_length,
    hdec]

end Sys2Proof

namespace Sys2Proof.Machine

theorem encodedAs_encode {c : Config} (hmap : c.opcodeMap = defaultOpcodeMap) {i : Instr}
    (hi : i.op ≠ .addi) : EncodedAs (encode c i) i := by
  intro c' hmap'
  have hop : c.opcode i.op = c'.opcode i.op := by
    cases ho : i.op with
    | addi => exact absurd ho hi
    | _ => simp [Config.opcode, hmap, hmap']
  have hbytes : encode c i = encode c' i := by rw [encode, encode, hop]
  rw [hbytes]
  exact decodeBytes_encode_of_lookupOp (lookupOp_defaultMap hmap' hi)

/-- An instruction of a one-register form checks its register before its body runs (R12). -/
theorem checksRegister_of_formR {o : Op} {mk : Byte → Instr}
    {body : Byte → State → Reg → Except Cause State}
    (h : ∀ r s, exec (mk r) s = formR o r s (body r s)) : ChecksRegister o mk :=
  fun s r hr => (h r s).trans (formR_ge hr)

/-- The fetch counts the operand bytes by the tag alone (R70, R71), so its faults are the same for every
mnemonic. -/
theorem fetchIsBounded (o : Op) : FetchIsBounded o := by
  intro s hrun hc
  constructor
  · intro hpc hop hout
    have htag : opTag s.opcodeByte = o.operandCount := by
      rw [State.opcodeByte, hop, hc.1 o (Op.mem_all o)]
    rw [step_fetch_error hrun (State.fetch_operand_outside hpc (htag ▸ hout)), State.opcodeByte, hop]
    rfl
  · intro hpc
    exact step_fetch_error hrun (State.fetch_opcode_outside hpc)

/-! ### Immediate load and output (R100, R101) -/

theorem exec_ldi_lt {r imm : Byte} {s : State} (h : r.toNat < 8) :
    exec (.ldi r imm) s = .next ((s.setReg ⟨r.toNat, h⟩ imm).advance .ldi) :=
  formR_lt h

theorem exec_prn_lt {r : Byte} {s : State} (h : r.toNat < 8) :
    exec (.prn r) s = .next ((s.emit (s.reg ⟨r.toNat, h⟩)).advance .prn) :=
  formR_lt h

/-- With SP at 0, the next Push starts from the sentinel (R23, R141). -/
theorem State.pushSp_of_sp_zero {s : State} (h : s.sp = 0x00#8) :
    s.pushSp = s.cfg.stackSentinel - 1#8 := by
  simp [State.pushSp, h]

/-- Settles O24: the effect is LDI's arm past the register check; after LDI R7,0 the SP is 0. -/
theorem ldiLoadsTheImmediate : Obligations.LdiLoadsTheImmediate := by
  refine ⟨fun r imm => encodedAs_encode (c := defaultConfig) rfl (i := .ldi r imm) nofun,
    fun s r imm h => exec_ldi_lt h, fun s => ?_,
    fun imm => checksRegister_of_formR fun _ _ => rfl, fetchIsBounded .ldi⟩
  have hsp : ((s.setReg spReg 0x00#8).advance .ldi).sp = 0x00#8 := by simp
  exact ⟨_, exec_ldi_lt (by decide), State.pushSp_of_sp_zero hsp⟩

/-- Settles O25: the effect is PRN's arm past the register check. -/
theorem prnEmitsTheByte : Obligations.PrnEmitsTheByte :=
  ⟨fun r => encodedAs_encode (c := defaultConfig) rfl (i := .prn r) nofun,
    fun _ _ h => exec_prn_lt h, checksRegister_of_formR fun _ _ => rfl, fetchIsBounded .prn⟩

end Sys2Proof.Machine

/-! ### The ALU without a fault of its own (R110 to R116) -/

namespace Sys2Proof.Machine

/-- An instruction of a two-register form checks its registers in operand order, before its body runs
(R12). -/
theorem checksRegisters_of_formRR {o : Op} {mk : Byte → Byte → Instr}
    {body : State → Reg → Reg → Except Cause State}
    (h : ∀ a b s, exec (mk a b) s = formRR o a b s (body s)) : ChecksRegisters o mk :=
  fun s a b => ⟨fun ha => (h a b s).trans (formRR_ge_first ha),
    fun ha hb => (h a b s).trans (formRR_ge_second ha hb)⟩

/-- A two-register ALU instruction that cannot raise (R110) follows its rule when its bytes under the default
map are those written, it is three bytes long, and its operation on bytes is the one on naturals, reduced
modulo 256. -/
theorem binaryAluRule_of_aluBinary {o : Op} {mk : Byte → Byte → Instr} {code : Byte}
    {alu : Byte → Byte → Byte} {f : Nat → Nat → Nat}
    (hcode : ∀ a b, encode defaultConfig (mk a b) = [code, a, b])
    (haddi : ∀ a b, (mk a b).op ≠ .addi)
    (hexec : ∀ a b s, exec (mk a b) s = aluBinary o alu a b s)
    (hcount : o.operandCount = 2)
    (halu : ∀ x y, alu x y = BitVec.ofNat 8 (f x.toNat y.toNat)) : BinaryAluRule o mk code f := by
  refine ⟨fun a b => hcode a b ▸ encodedAs_encode rfl (haddi a b), fun s a b ha hb => ?_,
    checksRegisters_of_formRR hexec, fetchIsBounded o⟩
  have hpc : byteOfNat (1 + o.operandCount) = 3#8 := by rw [hcount]; rfl
  rw [hexec, aluBinary, formRR_lt ha hb, State.finish_ok, halu, State.advance, hpc]
  rfl

/-! The bitwise operations on bytes are those on naturals: no bit leaves the byte. -/

theorem aluAnd_eq_ofNat (x y : Byte) : aluAnd x y = BitVec.ofNat 8 (x.toNat &&& y.toNat) := by
  rw [← BitVec.toNat_and, BitVec.ofNat_toNat, BitVec.setWidth_eq, aluAnd]

theorem aluOr_eq_ofNat (x y : Byte) : aluOr x y = BitVec.ofNat 8 (x.toNat ||| y.toNat) := by
  rw [← BitVec.toNat_or, BitVec.ofNat_toNat, BitVec.setWidth_eq, aluOr]

theorem aluXor_eq_ofNat (x y : Byte) : aluXor x y = BitVec.ofNat 8 (x.toNat ^^^ y.toNat) := by
  rw [← BitVec.toNat_xor, BitVec.ofNat_toNat, BitVec.setWidth_eq, aluXor]

/-- Settles O27: the ALU's product and sum are the natural ones narrowed to a byte, by definition. -/
theorem mulAndAddWrap : Obligations.MulAndAddWrap :=
  ⟨binaryAluRule_of_aluBinary (fun _ _ => rfl) nofun (fun _ _ _ => rfl) rfl fun _ _ => rfl,
    binaryAluRule_of_aluBinary (fun _ _ => rfl) nofun (fun _ _ _ => rfl) rfl fun _ _ => rfl⟩

/-- Settles O28: each bitwise operation on bytes agrees with the one on naturals. -/
theorem bitwiseOperations : Obligations.BitwiseOperations :=
  ⟨binaryAluRule_of_aluBinary (fun _ _ => rfl) nofun (fun _ _ _ => rfl) rfl aluAnd_eq_ofNat,
    binaryAluRule_of_aluBinary (fun _ _ => rfl) nofun (fun _ _ _ => rfl) rfl aluOr_eq_ofNat,
    binaryAluRule_of_aluBinary (fun _ _ => rfl) nofun (fun _ _ _ => rfl) rfl aluXor_eq_ofNat⟩

theorem exec_not_lt {a : Byte} {s : State} (h : a.toNat < 8) :
    exec (.not a) s =
      .next ((s.setReg ⟨a.toNat, h⟩ (aluNot (s.reg ⟨a.toNat, h⟩))).advance .not) :=
  formR_lt h

/-- Settles O29: the effect is NOT's arm past the register check. -/
theorem notComplements : Obligations.NotComplements :=
  ⟨fun a => encodedAs_encode (c := defaultConfig) rfl (i := .not a) nofun,
    fun _ _ h => exec_not_lt h, checksRegister_of_formR fun _ _ => rfl, fetchIsBounded .not⟩

end Sys2Proof.Machine

/-! ### CMP and the jumps (R165 to R168) -/

namespace Sys2Proof.Machine

theorem exec_cmp_lt {a b : Byte} {s : State} (ha : a.toNat < 8) (hb : b.toNat < 8) :
    exec (.cmp a b) s =
      .next ((s.setFlag (compareFlag (s.reg ⟨a.toNat, ha⟩) (s.reg ⟨b.toNat, hb⟩))).advance .cmp) :=
  formRR_lt ha hb

/-- Settles O41: the effect is CMP's arm past the register checks, its comparison `compareFlag` by definition. -/
theorem cmpSetsTheFlag : Obligations.CmpSetsTheFlag :=
  ⟨fun a b => encodedAs_encode (c := defaultConfig) rfl (i := .cmp a b) nofun,
    fun _ _ _ ha hb => exec_cmp_lt ha hb, checksRegisters_of_formRR fun _ _ _ => rfl,
    fetchIsBounded .cmp⟩

theorem branchTo_lt {o : Op} {taken : Bool} {r : Byte} {s : State} (h : r.toNat < 8) :
    branchTo o taken r s = .next (if taken then s.jump (s.reg ⟨r.toNat, h⟩) else s.advance o) :=
  formR_lt h

theorem exec_jeq_lt {r : Byte} {s : State} (h : r.toNat < 8) :
    exec (.jeq r) s =
      .next (if s.fl = .equal then s.jump (s.reg ⟨r.toNat, h⟩) else s.advance .jeq) :=
  (branchTo_lt h).trans (by simp only [jeqTaken, decide_eq_true_eq])

theorem exec_jne_lt {r : Byte} {s : State} (h : r.toNat < 8) :
    exec (.jne r) s =
      .next (if s.fl = .equal then s.advance .jne else s.jump (s.reg ⟨r.toNat, h⟩)) :=
  (branchTo_lt h).trans (by simp only [jneTaken, decide_eq_true_eq, ne_eq, ite_not])

/-- Settles O42: each of the two jumps, past its register check, with FL EQUAL and with FL not EQUAL. -/
theorem jeqAndJneFollowTheFlag : Obligations.JeqAndJneFollowTheFlag := by
  refine ⟨fun r => ⟨encodedAs_encode (c := defaultConfig) rfl (i := .jeq r) nofun,
      encodedAs_encode (c := defaultConfig) rfl (i := .jne r) nofun⟩,
    fun s r h => ?_, fun _ => rfl,
    checksRegister_of_formR fun _ _ => rfl, checksRegister_of_formR fun _ _ => rfl,
    fetchIsBounded .jeq, fetchIsBounded .jne⟩
  rw [exec_jeq_lt h, exec_jne_lt h]
  by_cases hfl : s.fl = .equal
  · simp only [if_pos hfl]
    exact ⟨rfl, rfl⟩
  · simp only [if_neg hfl]
    exact ⟨rfl, rfl⟩

theorem exec_jmp_lt {r : Byte} {s : State} (h : r.toNat < 8) :
    exec (.jmp r) s = .next (s.jump (s.reg ⟨r.toNat, h⟩)) :=
  formR_lt h

theorem State.jump_to_pc (s : State) : s.jump s.pc = s := rfl

/-- Settles O43: the effect is JMP's arm past the register check, and a jump to PC is no change. -/
theorem jmpJumps : Obligations.JmpJumps := by
  refine ⟨fun r => encodedAs_encode (c := defaultConfig) rfl (i := .jmp r) nofun,
    fun s r h => ⟨exec_jmp_lt h, fun hself => ?_⟩,
    checksRegister_of_formR fun _ _ => rfl, fetchIsBounded .jmp⟩
  have hreg : s.reg ⟨r.toNat, h⟩ = s.pc := hself
  rw [exec_jmp_lt h, hreg, State.jump_to_pc]

end Sys2Proof.Machine

/-! ### Decoding and encoding agree (section 1 and 2 of spec/30_encoding.md) -/

namespace Sys2Proof

/-- What a decode of bytes that succeeds says: the operand bytes are there, and with the opcode byte they are
the instruction's. -/
theorem decodeBytes_cons_ok {c : Config} {op : Byte} {tail rest : List Byte} {i : Instr}
    (h : decodeBytes c (op :: tail) = .ok (i, rest)) :
    opTag op ≤ tail.length ∧ op = c.opcode i.op ∧ tail.take (opTag op) = i.operands ∧
    opTag op = i.op.operandCount ∧ rest = tail.drop (opTag op) := by
  by_cases hlen : tail.length < opTag op
  · simp [decodeBytes, hlen] at h
  · cases hdec : decodeInstr c op (tail.take (opTag op)) with
    | none => simp [decodeBytes, hlen, hdec] at h
    | some j =>
      obtain ⟨rfl, rfl⟩ : j = i ∧ tail.drop (opTag op) = rest := by
        simpa [decodeBytes, hlen, hdec] using h
      obtain ⟨hop, hoperands, htag⟩ := decodeInstr_some hdec
      exact ⟨Nat.not_lt.mp hlen, hop, hoperands, htag, rfl⟩

/-- Enough operand bytes are there: the decode splits them off and looks the opcode byte up. -/
theorem decodeBytes_cons_append {c : Config} {op : Byte} {operands rest : List Byte} {i : Instr}
    (hlen : operands.length = opTag op) (hdec : decodeInstr c op operands = some i) :
    decodeBytes c (op :: (operands ++ rest)) = .ok (i, rest) := by
  have henough : ¬ (operands ++ rest).length < opTag op := by
    rw [List.length_append, hlen]
    omega
  simp only [decodeBytes, henough, if_false, List.take_left' hlen, List.drop_left' hlen, hdec]

theorem decodeBytes_missingOperand_iff {c : Config} {op : Byte} {tail : List Byte} :
    decodeBytes c (op :: tail) = .error (.missingOperand op) ↔ tail.length < opTag op := by
  by_cases hlen : tail.length < opTag op
  · simp [decodeBytes, hlen]
  · cases hdec : decodeInstr c op (tail.take (opTag op)) <;> simp [decodeBytes, hlen, hdec]

theorem decodeBytes_encode_append {c : Config} (hc : c.Admissible) (i : Instr) (rest : List Byte) :
    decodeBytes c (encode c i ++ rest) = .ok (i, rest) := by
  have hlen : i.operands.length = opTag (c.opcode i.op) := by
    rw [Instr.operands_length, hc.1 i.op (Op.mem_all i.op)]
  exact decodeBytes_cons_append hlen (decodeInstr_operands hc i)

/-- Settles O1: the encoding has as many operand bytes as its tag says, and they decode to the instruction. -/
theorem decodeOfEncodeIsTheInstruction : Obligations.DecodeOfEncodeIsTheInstruction :=
  fun _ hc i rest => decodeBytes_encode_append hc i rest

/-- Settles O2: the operand bytes split off, and the bytes left, are the bytes that were there. -/
theorem decodedBytesAreTheEncoding : Obligations.DecodedBytesAreTheEncoding := by
  intro c bs rest i h
  cases bs with
  | nil => cases h
  | cons op tail =>
    obtain ⟨-, hop, hoperands, -, rfl⟩ := decodeBytes_cons_ok h
    rw [encode, ← hop, ← hoperands, List.cons_append, List.take_append_drop]

/-- Under the default map the fixed opcodes differ in their low six bits already (C3). -/
theorem opcode_low_six_inj {c : Config} (hmap : c.opcodeMap = defaultOpcodeMap) {o o' : Op}
    (ho : o ≠ .addi) (ho' : o' ≠ .addi)
    (h : (c.opcode o).toNat % 64 = (c.opcode o').toNat % 64) : o = o' := by
  obtain ⟨m, addi, sentinel, fatal⟩ := c
  subst hmap
  have hnodup : ((Op.all.filter (· != .addi)).map fun o =>
      (Config.opcode ⟨defaultOpcodeMap, addi, sentinel, fatal⟩ o).toNat % 64).Nodup := by
    simp [Op.all, Config.opcode, defaultOpcodeMap]
  exact List.inj_on_of_nodup_map hnodup (by simp [Op.mem_all, ho]) (by simp [Op.mem_all, ho']) h

/-- Settles O4: a byte of another row with the same low six bits would be that row's own opcode. -/
theorem dispatchIsOnTheFullByte : Obligations.DispatchIsOnTheFullByte := by
  refine fun c hc => ⟨fun op operands i => ⟨fun h => ?_, ?_⟩,
    fun hmap b o ho hlow hne hneAddi => Machine.undefinedByte_iff.mpr fun o' hb => ?_⟩
  · obtain ⟨hop, hoperands, -⟩ := decodeInstr_some h
    exact ⟨hop, hoperands⟩
  · rintro ⟨rfl, rfl⟩
    exact decodeInstr_operands hc i
  · subst hb
    have ho' : o' ≠ .addi := fun h => hneAddi (h ▸ rfl)
    exact hne (congrArg c.opcode (opcode_low_six_inj hmap ho' ho hlow))

/-- Settles O5: the decode splits off as many operand bytes as the tag says. -/
theorem lengthIsToldByTheTag : Obligations.LengthIsToldByTheTag := by
  refine fun c op tail => ⟨fun i rest h => ?_, decodeBytes_missingOperand_iff⟩
  obtain ⟨hlen, -, -, htag, rfl⟩ := decodeBytes_cons_ok h
  have hle := i.op.operandCount_le
  simp only [opTag] at hlen htag ⊢
  refine ⟨?_, htag, by omega⟩
  rw [List.length_cons, List.length_drop]
  omega

end Sys2Proof

namespace Sys2Proof.Machine

theorem decodeBytes_addi {c : Config} (hc : c.Admissible) (imm r : Byte) :
    decodeBytes c [c.addiOpcode, imm, r] = .ok (.addi imm r, []) :=
  decodeBytes_encode_append hc (.addi imm r) []

/-- Settles O6: each word is the encoding of its instruction under the default map, ADDI's under any. -/
theorem specWordsDecode : Obligations.SpecWordsDecode :=
  ⟨encodedAs_encode (c := defaultConfig) rfl (i := .ldi 0x03#8 0xFF#8) nofun,
    encodedAs_encode (c := defaultConfig) rfl (i := .prn 0x02#8) nofun,
    encodedAs_encode (c := defaultConfig) rfl (i := .hlt) nofun,
    encodedAs_encode (c := defaultConfig) rfl (i := .mod 0x01#8 0x02#8) nofun,
    encodedAs_encode (c := defaultConfig) rfl (i := .push 0x07#8) nofun,
    encodedAs_encode (c := defaultConfig) rfl (i := .call 0x01#8) nofun,
    encodedAs_encode (c := defaultConfig) rfl (i := .ret) nofun,
    encodedAs_encode (c := defaultConfig) rfl (i := .cmp 0x00#8 0x01#8) nofun,
    fun _ hc => decodeBytes_addi hc 0x0A#8 0x02#8⟩

/-! ### The cycle and the order of its faults (R70 to R72, R206) -/

/-- The bytes of an instruction lie from PC on, inside Memory: the fetch gives the instruction. -/
theorem State.fetch_of_bytes {s : State} {i : Instr} (hc : s.cfg.Admissible)
    (h : ∀ (k : Nat) (hk : k < (encode s.cfg i).length),
      s.pc.toNat + k < 128 ∧ s.mem.read (s.pc.toNat + k) = (encode s.cfg i)[k]) : s.fetch = .ok i := by
  have hlen : (encode s.cfg i).length = i.op.operandCount + 1 := by simp [encode]
  have hop : s.opcodeByte = s.cfg.opcode i.op := (h 0 (by omega)).2
  have htag : opTag s.opcodeByte = i.op.operandCount := by rw [hop, hc.1 i.op (Op.mem_all i.op)]
  have hin : s.pc.toNat + opTag s.opcodeByte < 128 := htag ▸ (h i.op.operandCount (by omega)).1
  have hoperands : s.operandBytes = i.operands := by
    refine List.ext_getElem (by simp [State.operandBytes, htag]) fun k hk hk' => ?_
    have hread := (h (k + 1) (by rw [hlen, ← Instr.operands_length]; omega)).2
    simpa [State.operandBytes, encode, Nat.add_assoc, Nat.add_comm 1] using hread
  rw [State.fetch_inside hin, hop, hoperands, decodeInstr_operands hc]

theorem step_fetch_ok {s : State} {i : Instr} (hrun : s.status = .running) (hf : s.fetch = .ok i) :
    step s = exec i s := by
  rw [step_running hrun, hf]

/-- Settles O7: the fetch gives the instruction, and the step executes it. -/
theorem stepRunsTheDecodedInstruction : Obligations.StepRunsTheDecodedInstruction :=
  fun _ _ hrun hc h => step_fetch_ok hrun (State.fetch_of_bytes hc h)

/-- Settles O8: each fetch fault is the fetch's answer before the opcode byte is looked up. -/
theorem fetchFaultsComeBeforeDecode : Obligations.FetchFaultsComeBeforeDecode := by
  refine fun s hrun => ⟨fun hpc => step_fetch_error hrun (State.fetch_opcode_outside hpc), ?_⟩
  rintro op hpc rfl hout
  exact step_fetch_error hrun (State.fetch_operand_outside hpc hout)

theorem ChecksRegister.raised_of_find? {o : Op} {mk : Byte → Instr} (hchk : ChecksRegister o mk)
    {s : State} {a r : Byte} (h : [a].find? (fun r => decide (8 ≤ r.toNat)) = some r) :
    exec (mk a) s = raised s o (.outOfBounds .register r.toNat) := by
  obtain ⟨hr, rfl⟩ : 8 ≤ a.toNat ∧ a = r := by simpa using h
  exact hchk s a hr

theorem ChecksRegisters.raised_of_find? {o : Op} {mk : Byte → Byte → Instr} (hchk : ChecksRegisters o mk)
    {s : State} {a b r : Byte} (h : [a, b].find? (fun r => decide (8 ≤ r.toNat)) = some r) :
    exec (mk a b) s = raised s o (.outOfBounds .register r.toNat) := by
  by_cases ha : 8 ≤ a.toNat
  · obtain rfl : a = r := by simpa [ha] using h
    exact (hchk s a b).1 ha
  · obtain ⟨hb, rfl⟩ : 8 ≤ b.toNat ∧ b = r := by simpa [ha] using h
    exact (hchk s a b).2 (Nat.not_le.mp ha) hb

/-- Settles O9: every instruction with register operands runs its body inside an operand form, which checks
them first. -/
theorem registerOperandsAreCheckedFirst : Obligations.RegisterOperandsAreCheckedFirst := by
  intro i s r h
  cases i with
  | hlt | ret => cases h
  | ldi _ imm =>
    exact (checksRegister_of_formR (mk := fun r => .ldi r imm) fun _ _ => rfl).raised_of_find? h
  | addi imm _ =>
    exact (checksRegister_of_formR (mk := fun r => .addi imm r) fun _ _ => rfl).raised_of_find? h
  | prn | not | push | pop | call | jeq | jne | jmp =>
    exact (checksRegister_of_formR fun _ _ => rfl).raised_of_find? h
  | mul | add | and | or | xor | shl | shr | mod | cmp =>
    exact (checksRegisters_of_formRR fun _ _ _ => rfl).raised_of_find? h

end Sys2Proof.Machine

/-! ### What an instruction leaves alone, and what a step does -/

namespace Sys2Proof.Machine

/-- The registers an instruction may write: its destination; R7 for the stack forms; both for POP. -/
def writesReg : Instr → Reg → Prop
  | .push _, j => j = spReg
  | .call _, j => j = spReg
  | .ret, j => j = spReg
  | .pop r, j => j = spReg ∨ j.val = r.toNat
  | i, j => ∃ d, destReg i = some d ∧ j.val = d.toNat

theorem writesReg_iff_of_destReg {i : Instr} {d : Byte} (h : destReg i = some d) (j : Reg) :
    writesReg i j ↔ j.val = d.toNat := by
  unfold writesReg
  split
  · cases h
  · cases h
  · cases h
  · cases h
  · simp [h]

/-- What the effect of an instruction may be in each field of the state, and which instructions write the
field. -/
structure EffectBound (s t : State) (i : Instr) : Prop where
  reg : ∀ j, ¬ writesReg i j → t.reg j = s.reg j
  pc : setsPc i.op = false → t.pc = s.pc + byteOfNat (1 + i.op.operandCount)
  fl : t.fl = s.fl ∨ ∃ a b, i = .cmp a b
  mem : t.mem = s.mem ∨
    ((∃ r, i = .push r ∨ i = .call r) ∧ s.pushSp.toNat < 128 ∧ ∃ v, t.mem = s.mem.write s.pushSp.toNat v)
  status : t.status = s.status ∧ i ≠ .hlt ∨ t.status = .halted ∧ i = .hlt
  out : t.out = s.out ∨ ∃ (r : Byte) (h : r.toNat < 8), i = .prn r ∧ t.out = s.out ++ [s.reg ⟨r.toNat, h⟩]
  diag : t.diag = s.diag ∨
    ((i = .ret ∨ ∃ r, i = .pop r) ∧ s.sp = s.cfg.stackSentinel ∧ s.cfg.underflowFatal = false ∧
      t.regs = s.regs ∧ t.diag = s.diag ++ [{ kind := .stackUnderflow, pc := s.pc, info := s.sp }])
  cfg : t.cfg = s.cfg

/-- An instruction that writes its destination and advances. -/
theorem EffectBound.of_setReg {s : State} {i : Instr} {o : Op} {d : Byte} (hd : destReg i = some d)
    (ho : i.op = o) {h : d.toNat < 8} {v : Byte} :
    EffectBound s ((s.setReg ⟨d.toNat, h⟩ v).advance o) i where
  reg j hj := by
    have hne : j ≠ ⟨d.toNat, h⟩ := fun e => hj ((writesReg_iff_of_destReg hd j).mpr (by rw [e]))
    simp [hne]
  pc _ := by rw [ho]; rfl
  fl := .inl rfl
  mem := .inl rfl
  status := .inl ⟨rfl, by rintro rfl; cases hd⟩
  out := .inl rfl
  diag := .inl rfl
  cfg := rfl

/-- An instruction that changes nothing but where it goes on. -/
theorem EffectBound.of_jump {s : State} {i : Instr} {p : Byte} (hi : i ≠ .hlt)
    (hp : setsPc i.op = false → p = s.pc + byteOfNat (1 + i.op.operandCount)) :
    EffectBound s (s.jump p) i :=
  ⟨fun _ _ => rfl, hp, .inl rfl, .inl rfl, .inl ⟨rfl, hi⟩, .inl rfl, .inl rfl, rfl⟩

/-- A Push that was inside Memory, and where the instruction goes on. -/
theorem EffectBound.of_push {s : State} {i : Instr} {p v : Byte} (hi : ∃ r, i = .push r ∨ i = .call r)
    (hin : s.pushSp.toNat < 128)
    (hp : setsPc i.op = false → p = s.pc + byteOfNat (1 + i.op.operandCount)) :
    EffectBound s (((s.setSp s.pushSp).setCell s.pushSp.toNat v).jump p) i where
  reg j hj := by
    have hne : j ≠ spReg := by
      rintro rfl
      obtain ⟨r, rfl | rfl⟩ := hi <;> exact hj rfl
    simp [hne]
  pc := hp
  fl := .inl rfl
  mem := .inr ⟨hi, hin, v, rfl⟩
  status := .inl ⟨rfl, by rintro rfl; obtain ⟨r, h | h⟩ := hi <;> cases h⟩
  out := .inl rfl
  diag := .inl rfl
  cfg := rfl

/-- A report of an empty stack, after which the instruction advances. -/
theorem EffectBound.of_report {s : State} {i : Instr} (hi : i = .ret ∨ ∃ r, i = .pop r)
    (he : s.sp = s.cfg.stackSentinel) (hf : s.cfg.underflowFatal = false) :
    EffectBound s ((s.report .stackUnderflow s.sp).advance i.op) i where
  reg _ _ := rfl
  pc _ := rfl
  fl := .inl rfl
  mem := .inl rfl
  status := .inl ⟨rfl, by rintro rfl; obtain h | ⟨r, h⟩ := hi <;> cases h⟩
  out := .inl rfl
  diag := .inr ⟨hi, he, hf, rfl, rfl⟩
  cfg := rfl

/-- Every effect keeps to the bound, by the shape of the instruction's effect. -/
theorem Effect.bound {s t : State} {i : Instr} (h : Effect s t i) : EffectBound s t i := by
  cases i with
  | ldi | not | addi =>
    obtain ⟨hr, rfl⟩ := h
    exact .of_setReg (by rfl) (by rfl)
  | mul | add | and | or | xor | shl | shr =>
    obtain ⟨ha, hb, rfl⟩ := h
    exact .of_setReg (by rfl) (by rfl)
  | mod =>
    obtain ⟨⟨ha, hb, rfl⟩, -⟩ := h
    exact .of_setReg (by rfl) (by rfl)
  | prn r =>
    obtain ⟨hr, rfl⟩ := h
    exact ⟨fun _ _ => rfl, fun _ => rfl, .inl rfl, .inl rfl, .inl ⟨rfl, nofun⟩, .inr ⟨r, hr, rfl, rfl⟩,
      .inl rfl, rfl⟩
  | hlt =>
    subst h
    exact ⟨fun _ _ => rfl, fun _ => rfl, .inl rfl, .inl rfl, .inr ⟨rfl, rfl⟩, .inl rfl, .inl rfl, rfl⟩
  | cmp a b =>
    obtain ⟨ha, hb, rfl⟩ := h
    exact ⟨fun _ _ => rfl, fun _ => rfl, .inr ⟨a, b, rfl⟩, .inl rfl, .inl ⟨rfl, nofun⟩, .inl rfl, .inl rfl,
      rfl⟩
  | push r =>
    obtain ⟨hr, hin, rfl⟩ := h
    exact .of_push ⟨r, .inl rfl⟩ hin fun _ => rfl
  | call r =>
    obtain ⟨hr, hin, rfl⟩ := h
    exact .of_push ⟨r, .inr rfl⟩ hin nofun
  | pop r =>
    obtain ⟨hr, ⟨-, -, rfl⟩ | ⟨he, hf, rfl⟩⟩ := h
    · refine ⟨fun j hj => ?_, fun _ => rfl, .inl rfl, .inl rfl, .inl ⟨rfl, nofun⟩, .inl rfl, .inl rfl, rfl⟩
      obtain ⟨hsp, hr'⟩ := not_or.mp hj
      have hne : j ≠ ⟨r.toNat, hr⟩ := fun e => hr' (by rw [e])
      simp [State.popped, hsp, hne]
    · exact .of_report (.inr ⟨r, rfl⟩) he hf
  | ret =>
    obtain ⟨-, -, rfl⟩ | ⟨he, hf, rfl⟩ := h
    · refine ⟨fun j hj => ?_, nofun, .inl rfl, .inl rfl, .inl ⟨rfl, nofun⟩, .inl rfl, .inl rfl, rfl⟩
      have hsp : j ≠ spReg := hj
      simp [State.popped, hsp]
    · exact .of_report (.inl rfl) he hf
  | jeq r | jne r =>
    obtain ⟨hr, rfl⟩ := h
    split <;> exact .of_jump nofun nofun
  | jmp r =>
    obtain ⟨hr, rfl⟩ := h
    exact .of_jump nofun nofun

/-- What a step can do: it takes a fault that leaves all but STATUS, with the record R20 asks for, or the
instruction fetched has its effect. -/
theorem step_cases {s t : State} (h : step s = .next t) :
    s.status = .running ∧
    ((∃ c, t = s.takeFault (if s.pc.toNat < 128 then some s.opcodeByte else none) c) ∨
     (∃ i, s.fetch = .ok i ∧ Effect s t i)) := by
  obtain ⟨hrun, ⟨f, hf, rfl⟩ | ⟨i, hi, hex⟩⟩ := step_next h
  · refine ⟨hrun, .inl ⟨f.cause, ?_⟩⟩
    rcases State.fetch_error hf with ⟨hpc, rfl⟩ | ⟨hpc, -, rfl⟩ | ⟨hpc, -, rfl⟩
    · rw [if_neg (by omega)]
    · rw [if_pos hpc]
    · rw [if_pos (by omega)]
  · refine ⟨hrun, ?_⟩
    rcases exec_next hex with heff | ⟨c, -, rfl⟩
    · exact .inr ⟨i, hi, heff⟩
    · obtain ⟨hpc, hop, -, -⟩ := State.fetch_ok hi
      exact .inl ⟨c, by rw [if_pos (by omega), hop]⟩

/-! ### What every step keeps -/

/-- The status an effect leaves in a RUNNING engine. -/
theorem Effect.status_of_running {s t : State} {i : Instr} (h : Effect s t i) (hrun : s.status = .running) :
    t.status = .running ∧ i ≠ .hlt ∨ t.status = .halted ∧ i = .hlt :=
  hrun ▸ h.bound.status

/-- An effect in a RUNNING engine leaves no fault. -/
theorem Effect.not_faulted {s t : State} {i : Instr} (h : Effect s t i) (hrun : s.status = .running)
    (r : FaultRecord) : t.status ≠ .faulted r := by
  rcases h.status_of_running hrun with ⟨hst, -⟩ | ⟨hst, -⟩ <;> simp [hst]

theorem Effect.mem_wf {s t : State} {i : Instr} (h : Effect s t i) (hwf : s.mem.wf = true) :
    t.mem.wf = true := by
  rcases h.bound.mem with hmem | ⟨-, hin, v, hmem⟩
  · rwa [hmem]
  · exact hmem ▸ Memory.wf_write _ v hwf hin

/-- The only records an effect writes are under the non-fatal policy. -/
theorem Effect.diag_of_fatal {s t : State} {i : Instr} (h : Effect s t i)
    (hf : s.cfg.underflowFatal = true) : t.diag = s.diag := by
  rcases h.bound.diag with hdiag | ⟨-, -, hnf, -⟩
  · exact hdiag
  · simp [hf] at hnf

/-- Settles O14: a fault is taken in place with the PC in its record; an effect leaves no fault, stores only
inside Memory, and reports only under the non-fatal policy. -/
theorem invariantIsKeptByEveryStep : Obligations.InvariantIsKeptByEveryStep := by
  rintro s t ⟨hwf, -, hdiag⟩ h
  obtain ⟨hrun, ⟨c, rfl⟩ | ⟨i, -, heff⟩⟩ := step_cases h
  · refine ⟨hwf, fun r hr => ?_, hdiag⟩
    cases hr
    rfl
  · refine ⟨heff.mem_wf hwf, fun r hr => absurd hr (heff.not_faulted hrun r), fun hf => ?_⟩
    rw [heff.bound.cfg] at hf
    rw [heff.diag_of_fatal hf, hdiag hf]

theorem State.inv_resetWith (c : Config) : (State.resetWith c).Inv :=
  ⟨rfl, nofun, fun _ => rfl⟩

/-- What a launch can give: the image fits, and it is placed in the memory of the reset state (R232). -/
theorem launch_eq_some {c : Config} {image : List Byte} {s : State} (h : launch c image = some s) :
    image.length ≤ 128 ∧ s = { State.resetWith c with mem := Memory.place [] 0 image } := by
  unfold launch State.preload memSize at h
  split at h
  · exact ⟨‹_›, (Option.some.inj h).symm⟩
  · cases h

theorem launch_inv {c : Config} {image : List Byte} {s : State} (h : launch c image = some s) : s.Inv := by
  obtain ⟨-, rfl⟩ := launch_eq_some h
  exact ⟨Memory.wf_place image [] 0 rfl, nofun, fun _ => rfl⟩

/-- Settles O15: reset leaves an empty memory and no fault, and placing an image keeps the canonical form. -/
theorem invariantHoldsAtReset : Obligations.InvariantHoldsAtReset :=
  ⟨State.inv_resetWith, State.inv_resetWith defaultConfig, fun _ _ _ => launch_inv⟩

/-- Settles O16: neither a fault nor an effect writes the parameters. -/
theorem parametersNeverChange : Obligations.ParametersNeverChange := by
  intro s t h
  obtain ⟨-, ⟨c, rfl⟩ | ⟨i, -, heff⟩⟩ := step_cases h
  · rfl
  · exact heff.bound.cfg

/-- Settles O50, by induction on the run: the launch state meets the invariant and every step keeps it. -/
theorem reachableStatesMeetTheInvariant : Obligations.ReachableStatesMeetTheInvariant := by
  intro c image s h
  induction h with
  | launched h =>
    obtain ⟨-, rfl⟩ := launch_eq_some h
    exact ⟨launch_inv h, rfl⟩
  | stepped _ hst ih =>
    exact ⟨invariantIsKeptByEveryStep _ _ ih.1 hst, (parametersNeverChange _ _ hst).trans ih.2⟩

/-! ### Stopping and faulting (R19, R200 to R205) -/

theorem exec_total (i : Instr) (s : State) : ∃ t, exec i s = .next t := by
  cases i with
  | hlt => exact ⟨_, rfl⟩
  | _ => exact s.finish_total _ _

theorem step_halted {s : State} (h : s.status = .halted) : step s = .fault .halted := by
  simp [step, h]

theorem step_faulted {s : State} {r : FaultRecord} (h : s.status = .faulted r) :
    step s = .fault (.faulted r) := by
  simp [step, h]

/-- Settles O10: a RUNNING engine takes the fetch's fault or executes, and every execution has a next state. -/
theorem stepsExactlyWhileRunning : Obligations.StepsExactlyWhileRunning := by
  refine fun s => ⟨⟨fun ⟨t, h⟩ => (step_next h).1, fun hrun => ?_⟩, step_halted, fun r => step_faulted⟩
  cases hf : s.fetch with
  | error f => exact ⟨_, step_fetch_error hrun hf⟩
  | ok i => exact step_fetch_ok hrun hf ▸ exec_total i s

/-- Settles O11: an effect leaves no fault, so the step took one. -/
theorem faultsArePrecise : Obligations.FaultsArePrecise := by
  intro s t r h hr
  obtain ⟨hrun, ⟨c, rfl⟩ | ⟨i, -, heff⟩⟩ := step_cases h
  · cases hr
    exact ⟨rfl, rfl, rfl⟩
  · exact absurd hr (heff.not_faulted hrun r)

/-- Settles O12: HLT's effect is the only one that leaves RUNNING, and HLT raises nothing. -/
theorem onlyHltHalts : Obligations.OnlyHltHalts := by
  refine fun s t h => ⟨⟨fun hhalt => ?_, fun hf => ?_⟩, fun hne => ?_⟩
  · obtain ⟨hrun, ⟨c, rfl⟩ | ⟨i, hi, heff⟩⟩ := step_cases h
    · cases hhalt
    · rcases heff.status_of_running hrun with ⟨hst, -⟩ | ⟨-, rfl⟩
      · simp [hst] at hhalt
      · exact hi
  · rw [step_fetch_ok (step_next h).1 hf] at h
    cases h
    rfl
  · cases hst : t.status with
    | running => exact .inl rfl
    | halted => exact absurd hst hne
    | faulted r => exact .inr ⟨r, rfl⟩

/-- Settles O13: each way an instruction can raise is one line of the tables of R201. -/
theorem causesBelongToTheirInstructions : Obligations.CausesBelongToTheirInstructions := by
  intro i s t r hrun h hr
  rcases exec_next h with heff | ⟨c, hc, rfl⟩
  · exact absurd hr (heff.not_faulted hrun r)
  · cases hr
    rcases hc with ⟨b, hb, hge, rfl⟩ | ⟨hi, hge, rfl⟩ | ⟨hi, he, hf, rfl⟩ | ⟨hi, -, hge, rfl⟩ |
      ⟨a, b, rfl, hb, hz, rfl⟩
    · exact ⟨b, hb, hge, rfl⟩
    · exact ⟨hge, .inl ⟨hi, rfl⟩⟩
    · exact ⟨hi, hf, rfl, he⟩
    · exact ⟨hge, .inr ⟨hi, rfl⟩⟩
    · exact ⟨a, b, rfl, rfl, hz⟩

/-! ### Which instruction writes what -/

/-- Settles O17: a fault leaves FL, and of the effects only CMP's writes it. -/
theorem onlyCmpWritesTheFlag : Obligations.OnlyCmpWritesTheFlag := by
  intro s t h hne
  obtain ⟨-, ⟨c, rfl⟩ | ⟨i, hi, heff⟩⟩ := step_cases h
  · exact absurd rfl hne
  · obtain ⟨a, b, rfl⟩ := heff.bound.fl.resolve_left hne
    exact ⟨a, b, hi⟩

/-- Settles O18: a fault leaves OUT, and of the effects only PRN's appends to it. -/
theorem onlyPrnEmits : Obligations.OnlyPrnEmits := by
  intro s t h
  obtain ⟨-, ⟨c, rfl⟩ | ⟨i, hi, heff⟩⟩ := step_cases h
  · exact .inl rfl
  · rcases heff.bound.out with hout | ⟨r, hr, rfl, hout⟩
    · exact .inl hout
    · exact .inr ⟨r, hr, hi, hout⟩

/-- Settles O19: a fault leaves Memory, and of the effects only PUSH's and CALL's write it, one cell. -/
theorem onlyPushAndCallStore : Obligations.OnlyPushAndCallStore := by
  intro s t a h hne
  obtain ⟨-, ⟨c, rfl⟩ | ⟨i, hi, heff⟩⟩ := step_cases h
  · exact absurd rfl hne
  · rcases heff.bound.mem with hmem | ⟨⟨r, hir⟩, hin, v, hmem⟩
    · exact absurd (by rw [hmem]) hne
    · have ha : a = s.pushSp.toNat := by
        by_contra hna
        simp [hmem, hna] at hne
      refine ⟨ha, ha ▸ hin, r, ?_⟩
      rcases hir with rfl | rfl
      · exact .inl hi
      · exact .inr hi

/-- Settles O20: a fault leaves DIAG, and of the effects only a non-fatal underflow's appends to it. -/
theorem onlyNonFatalUnderflowReports : Obligations.OnlyNonFatalUnderflowReports := by
  intro s t h
  obtain ⟨-, ⟨c, rfl⟩ | ⟨i, hi, heff⟩⟩ := step_cases h
  · exact .inl rfl
  · rcases heff.bound.diag with hdiag | ⟨hir, he, hf, -, hdiag⟩
    · exact .inl hdiag
    · refine .inr ⟨hf, he, ?_, hdiag⟩
      rcases hir with rfl | ⟨r, rfl⟩
      · exact .inl hi
      · exact .inr ⟨r, hi⟩

/-- Settles O23: the bytes of a fetched instruction lie below 128, so the advance past them does not wrap. -/
theorem pcAdvancesPastTheInstruction : Obligations.PcAdvancesPastTheInstruction := by
  intro s t i h hf hnf hpc
  obtain ⟨-, ⟨c, rfl⟩ | ⟨j, hj, heff⟩⟩ := step_cases h
  · exact absurd ⟨_, rfl⟩ hnf
  · obtain rfl : j = i := Except.ok.inj (hj.symm.trans hf)
    obtain ⟨hin, -⟩ := State.fetch_ok hf
    rw [heff.bound.pc hpc, byteOfNat, BitVec.toNat_add, BitVec.toNat_ofNat]
    omega

end Sys2Proof.Machine

/-! ### Simulations: what no program can observe (R164, R213) -/

namespace Sys2Proof.Machine

/-- A relation between states that agree in all an instruction can read, and that every write an instruction
makes keeps. -/
structure Simulation (R : State → State → Prop) : Prop where
  regs {s u} : R s u → u.regs = s.regs
  pc {s u} : R s u → u.pc = s.pc
  mem {s u} : R s u → u.mem = s.mem
  status {s u} : R s u → u.status = s.status
  cfg {s u} : R s u → u.cfg = s.cfg
  equalAlike {s u} : R s u → (s.fl = .equal ↔ u.fl = .equal)
  setReg {s u} (j : Reg) (v : Byte) : R s u → R (s.setReg j v) (u.setReg j v)
  jump {s u} (p : Byte) : R s u → R (s.jump p) (u.jump p)
  setFlag {s u} (f : Flag) : R s u → R (s.setFlag f) (u.setFlag f)
  halt {s u} : R s u → R s.halt u.halt
  emit {s u} (v : Byte) : R s u → R (s.emit v) (u.emit v)
  report {s u} (k : DiagKind) (v : Byte) : R s u → R (s.report k v) (u.report k v)
  setCell {s u} (a : Nat) (v : Byte) : R s u → R (s.setCell a v) (u.setCell a v)
  takeFault {s u} (op : Option Byte) (c : Cause) : R s u → R (s.takeFault op c) (u.takeFault op c)

/-- Two bodies of an instruction end alike: in related states, or with the same cause. -/
inductive ResultRel (R : State → State → Prop) : Except Cause State → Except Cause State → Prop where
  | ok {t v : State} (h : R t v) : ResultRel R (.ok t) (.ok v)
  | error (c : Cause) : ResultRel R (.error c) (.error c)

/-- Two Pops end alike. -/
inductive PopRel (R : State → State → Prop) : Except Cause Popped → Except Cause Popped → Prop where
  | value {t v : State} (h : R t v) : PopRel R (.ok (.value t)) (.ok (.value v))
  | underflow {t v : State} (h : R t v) : PopRel R (.ok (.underflow t)) (.ok (.underflow v))
  | error (c : Cause) : PopRel R (.error c) (.error c)

/-- Two outcomes are alike: related next states, or the same stop. -/
inductive OutcomeRel (R : State → State → Prop) :
    Host.Outcome State Fault Refusal → Host.Outcome State Fault Refusal → Prop where
  | next {t v : State} (h : R t v) : OutcomeRel R (.next t) (.next v)
  | fault (f : Fault) : OutcomeRel R (.fault f) (.fault f)
  | refused (r : Refusal) : OutcomeRel R (.refused r) (.refused r)

theorem OutcomeRel.exists_next {R : State → State → Prop} {x y : Host.Outcome State Fault Refusal}
    (h : OutcomeRel R x y) {t : State} (hx : x = .next t) : ∃ v, y = .next v ∧ R t v := by
  subst hx
  cases h with
  | next h => exact ⟨_, rfl, h⟩

theorem OutcomeRel.eq_fault {R : State → State → Prop} {x y : Host.Outcome State Fault Refusal}
    (h : OutcomeRel R x y) {f : Fault} (hx : x = .fault f) : y = .fault f := by
  subst hx
  cases h with
  | fault => rfl

/-! The fetch reads PC, Memory and the parameters. -/

theorem State.memRead_congr {s u : State} (h : u.mem = s.mem) (a : Nat) : u.memRead a = s.memRead a := by
  simp only [State.memRead, h]

theorem State.readBytes_congr {s u : State} (h : u.mem = s.mem) (a n : Nat) :
    u.readBytes a n = s.readBytes a n := by
  induction n generalizing a with
  | zero => rfl
  | succ n ih => simp only [State.readBytes, State.memRead_congr h, ih]

theorem State.fetch_congr {s u : State} (hpc : u.pc = s.pc) (hmem : u.mem = s.mem) (hcfg : u.cfg = s.cfg) :
    u.fetch = s.fetch := by
  simp only [State.fetch, hpc, hcfg, State.memRead_congr hmem, State.readBytes_congr hmem]

namespace Simulation

variable {R : State → State → Prop} (hR : Simulation R) {s u : State}

include hR

/-! The reads and writes of the stack and the advance, from the fields. -/

theorem reg (h : R s u) (j : Reg) : u.reg j = s.reg j := by
  rw [State.reg, hR.regs h, State.reg]

theorem sp (h : R s u) : u.sp = s.sp := hR.reg h spReg

theorem pushSp (h : R s u) : u.pushSp = s.pushSp := by
  rw [State.pushSp, hR.sp h, hR.cfg h, State.pushSp]

theorem advance (o : Op) (h : R s u) : R (s.advance o) (u.advance o) := by
  rw [State.advance, State.advance, hR.pc h]
  exact hR.jump _ h

theorem push {f : State → Byte} (h : R s u) (hf : ∀ {s u}, R s u → f u = f s) :
    ResultRel R (s.push f) (u.push f) := by
  have hset : R (s.setSp s.pushSp) (u.setSp s.pushSp) := hR.setReg spReg _ h
  by_cases hin : s.pushSp.toNat < 128
  · rw [State.push_lt hin, State.push_lt (hR.pushSp h ▸ hin), hR.pushSp h, hf hset]
    exact .ok (hR.setCell _ _ hset)
  · have hout := Nat.not_lt.mp hin
    rw [State.push_ge hout, State.push_ge (hR.pushSp h ▸ hout), hR.pushSp h]
    exact .error _

theorem pop {dest : State → Byte → State} (h : R s u)
    (hdest : ∀ v {s u}, R s u → R (dest s v) (dest u v)) : PopRel R (s.pop dest) (u.pop dest) := by
  have hsp := hR.sp h
  have hcfg := hR.cfg h
  rcases s.pop_cases dest with ⟨he, hin, hpop⟩ | ⟨he, hout, hpop⟩ | ⟨he, hf, hpop⟩ | ⟨he, hf, hpop⟩
  · have hdest' := hdest (s.mem.read s.sp.toNat) h
    rw [hpop, State.pop_value (by rwa [hsp, hcfg]) (by rwa [hsp]), State.popped, State.popped, hsp, hR.mem h,
      hR.sp hdest']
    exact .value (hR.setReg spReg _ hdest')
  · rw [hpop, State.pop_outside (by rwa [hsp, hcfg]) (by rwa [hsp]), hsp]
    exact .error _
  · rw [hpop, State.pop_empty_fatal (by rwa [hsp, hcfg]) (by rwa [hcfg]), hsp]
    exact .error _
  · rw [hpop, State.pop_empty_report (by rwa [hsp, hcfg]) (by rwa [hcfg]), hsp]
    exact .underflow (hR.report _ _ h)

/-! The operand forms. -/

theorem finish {o : Op} {x y : Except Cause State} (h : R s u) (hxy : ResultRel R x y) :
    OutcomeRel R (s.finish o x) (u.finish o y) := by
  cases hxy with
  | ok htv => exact .next htv
  | error c =>
    rw [State.finish_error, State.finish_error, hR.cfg h]
    exact .next (hR.takeFault _ c h)

theorem formR {o : Op} {r : Byte} {body body' : Reg → Except Cause State} (h : R s u)
    (hbody : ∀ d, ResultRel R (body d) (body' d)) :
    OutcomeRel R (Machine.formR o r s body) (Machine.formR o r u body') := by
  refine hR.finish h ?_
  cases checkReg r with
  | error c => exact .error c
  | ok d => exact hbody d

theorem formRR {o : Op} {a b : Byte} {body body' : Reg → Reg → Except Cause State} (h : R s u)
    (hbody : ∀ d e, ResultRel R (body d e) (body' d e)) :
    OutcomeRel R (Machine.formRR o a b s body) (Machine.formRR o a b u body') := by
  refine hR.finish h ?_
  cases checkReg a with
  | error c => exact .error c
  | ok d =>
    cases checkReg b with
    | error c => exact .error c
    | ok e => exact hbody d e

theorem aluBinary {o : Op} {f : Byte → Byte → Byte} {a b : Byte} (h : R s u) :
    OutcomeRel R (Machine.aluBinary o f a b s) (Machine.aluBinary o f a b u) := by
  refine hR.formRR h fun d e => ?_
  rw [hR.reg h, hR.reg h]
  exact .ok (hR.advance o (hR.setReg d _ h))

theorem branchTo {o : Op} {taken : Bool} {r : Byte} (h : R s u) :
    OutcomeRel R (Machine.branchTo o taken r s) (Machine.branchTo o taken r u) := by
  refine hR.formR h fun d => ?_
  rw [hR.reg h]
  cases taken with
  | true => exact .ok (hR.jump _ h)
  | false => exact .ok (hR.advance o h)

/-- Related states execute any instruction alike. -/
theorem exec (i : Instr) (h : R s u) : OutcomeRel R (Machine.exec i s) (Machine.exec i u) := by
  cases i with
  | ldi r imm => exact hR.formR h fun d => .ok (hR.advance .ldi (hR.setReg d imm h))
  | prn r =>
    refine hR.formR h fun d => ?_
    rw [hR.reg h]
    exact .ok (hR.advance .prn (hR.emit _ h))
  | hlt => exact .next (hR.advance .hlt (hR.halt h))
  | mul | add | and | or | xor | shl | shr => exact hR.aluBinary h
  | not a =>
    refine hR.formR h fun d => ?_
    rw [hR.reg h]
    exact .ok (hR.advance .not (hR.setReg d _ h))
  | mod a b =>
    refine hR.formRR h fun d e => ?_
    rw [hR.reg h, hR.reg h]
    split
    · exact .error _
    · exact .ok (hR.advance .mod (hR.setReg d _ h))
  | push r =>
    refine hR.formR h fun d => ?_
    have hpush := hR.push h (f := fun t => t.reg d) fun h => hR.reg h d
    generalize s.push _ = x, u.push _ = y at hpush ⊢
    cases hpush with
    | ok htv => exact .ok (hR.advance .push htv)
    | error c => exact .error c
  | pop r =>
    refine hR.formR h fun d => ?_
    have hpop := hR.pop h (dest := fun t v => t.setReg d v) fun v => hR.setReg d v
    generalize s.pop _ = x, u.pop _ = y at hpop ⊢
    cases hpop with
    | value htv => exact .ok (hR.advance .pop htv)
    | underflow htv => exact .ok (hR.advance .pop htv)
    | error c => exact .error c
  | call r =>
    refine hR.formR h fun d => ?_
    have hpush := hR.push h (f := fun t => t.pc + 2#8) fun h => by rw [hR.pc h]
    generalize s.push _ = x, u.push _ = y at hpush ⊢
    cases hpush with
    | @ok t v htv => exact .ok (hR.reg htv d ▸ hR.jump (t.reg d) htv)
    | error c => exact .error c
  | ret =>
    refine hR.finish h ?_
    have hpop := hR.pop h (dest := fun t v => t.jump v) fun v => hR.jump v
    generalize s.pop _ = x, u.pop _ = y at hpop ⊢
    cases hpop with
    | value htv => exact .ok htv
    | underflow htv => exact .ok (hR.advance .ret htv)
    | error c => exact .error c
  | cmp a b =>
    refine hR.formRR h fun d e => ?_
    rw [hR.reg h, hR.reg h]
    exact .ok (hR.advance .cmp (hR.setFlag _ h))
  | jeq r =>
    have htaken : jeqTaken u.fl = jeqTaken s.fl := decide_eq_decide.mpr (hR.equalAlike h).symm
    simp only [Machine.exec, execJeq, htaken]
    exact hR.branchTo h
  | jne r =>
    have htaken : jneTaken u.fl = jneTaken s.fl := decide_eq_decide.mpr (hR.equalAlike h).symm.not
    simp only [Machine.exec, execJne, htaken]
    exact hR.branchTo h
  | jmp r =>
    refine hR.formR h fun d => ?_
    rw [hR.reg h]
    exact .ok (hR.jump _ h)
  | addi imm r =>
    refine hR.formR h fun d => ?_
    simp only [hR.reg h]
    exact .ok (hR.advance .addi (hR.setReg d _ h))

/-- Related states take the same step. -/
theorem step (h : R s u) : OutcomeRel R (Machine.step s) (Machine.step u) := by
  have hst := hR.status h
  cases hs : s.status with
  | halted =>
    rw [step_halted hs, step_halted (hst.trans hs)]
    exact .fault _
  | faulted r =>
    rw [step_faulted hs, step_faulted (hst.trans hs)]
    exact .fault _
  | running =>
    have hfetch := State.fetch_congr (hR.pc h) (hR.mem h) (hR.cfg h)
    cases hf : s.fetch with
    | error f =>
      rw [step_fetch_error hs hf, step_fetch_error (hst.trans hs) (hfetch.trans hf)]
      exact .next (hR.takeFault _ _ h)
    | ok i =>
      rw [step_fetch_ok hs hf, step_fetch_ok (hst.trans hs) (hfetch.trans hf)]
      exact hR.exec i h

/-- Related states take the same run, by induction on its length. -/
theorem runSteps (n : Nat) (h : R s u) : OutcomeRel R (Machine.runSteps n s) (Machine.runSteps n u) := by
  induction n generalizing s u with
  | zero => exact .next h
  | succ n ih =>
    have hstep := hR.step h
    simp only [Machine.runSteps]
    generalize Machine.step s = x, Machine.step u = y at hstep ⊢
    cases hstep with
    | next htv => exact ih htv
    | fault f => exact .fault f
    | refused r => exact .refused r

end Simulation

/-! The two relations that the statements are about. -/

theorem SameUpToOrder.exists_flag {s u : State} (h : SameUpToOrder s u) :
    ∃ f, u = { s with fl := f } ∧ (s.fl = .equal ↔ f = .equal) :=
  ⟨u.fl, h.rest, h.equalAlike⟩

/-- FL is read by the branch conditions alone, which ask only whether it is EQUAL. -/
theorem simulation_sameUpToOrder : Simulation SameUpToOrder := by
  constructor <;> intros <;> rename_i h <;> obtain ⟨f, rfl, hf⟩ := h.exists_flag
  case equalAlike => exact hf
  case setFlag => exact ⟨rfl, .rfl⟩
  case setReg | jump | halt | emit | report | setCell | takeFault => exact ⟨rfl, hf⟩
  all_goals rfl

/-- Settles O21: states that differ in the order alone simulate one another over any run. -/
theorem flagOrderIsUnobservable : Obligations.FlagOrderIsUnobservable := by
  intro n s u h
  have hrun := simulation_sameUpToOrder.runSteps n h
  exact ⟨fun t => hrun.exists_next, fun f => hrun.eq_fault⟩

/-- The second state has more in front of its streams. -/
def StreamsLead (o : List Byte) (d : List DiagRecord) (s u : State) : Prop :=
  u = { s with out := o ++ s.out, diag := d ++ s.diag }

/-- The streams are never read, and every write appends at their end. -/
theorem simulation_streamsLead (o : List Byte) (d : List DiagRecord) :
    Simulation (StreamsLead o d) := by
  constructor <;> intros <;> rename_i h <;> obtain rfl := h
  case equalAlike => exact .rfl
  case emit => simp [StreamsLead, State.emit]
  case report => simp [StreamsLead, State.report]
  all_goals rfl

/-- Settles O22: a state with more in front of its streams simulates the one without. -/
theorem streamsAreUnobservable : Obligations.StreamsAreUnobservable := by
  intro s t o d h
  obtain ⟨v, hv, rfl⟩ := ((simulation_streamsLead o d).step rfl).exists_next h
  exact hv

end Sys2Proof.Machine

/-! ### Halt, shifts, remainder, ADDI (R102, R117 to R119, R180) -/

namespace Sys2Proof.Machine

/-- Settles O26: HLT's arm, and a HALTED engine takes no step. -/
theorem hltHalts : Obligations.HltHalts := by
  refine fun s => ⟨rfl, fun t h => ?_⟩
  cases h
  exact ⟨step_halted rfl, rfl⟩

/-- A shift left by 8 or more leaves only bits above the byte (R117). -/
theorem aluShl_of_large {x y : Byte} (h : 8 ≤ y.toNat) : aluShl x y = 0#8 := by
  have hdvd : 2 ^ 8 ∣ x.toNat * 2 ^ y.toNat := (Nat.pow_dvd_pow 2 h).mul_left x.toNat
  exact BitVec.eq_of_toNat_eq ((BitVec.toNat_ofNat ..).trans (Nat.mod_eq_zero_of_dvd hdvd))

/-- A shift right by 8 or more leaves no bit (R118). -/
theorem aluShr_of_large {x y : Byte} (h : 8 ≤ y.toNat) : aluShr x y = 0#8 := by
  have hlt : x.toNat < 2 ^ y.toNat := x.isLt.trans_le (Nat.pow_le_pow_right (by decide) h)
  rw [aluShr, Nat.div_eq_of_lt hlt, byteOfNat]

/-- The result of a two-register ALU instruction, read back from its destination. -/
theorem reg_of_aluBinary_next {o : Op} {f : Byte → Byte → Byte} {a b : Byte} {s t : State}
    (ha : a.toNat < 8) (hb : b.toNat < 8) (h : aluBinary o f a b s = .next t) :
    t.reg ⟨a.toNat, ha⟩ = f (s.reg ⟨a.toNat, ha⟩) (s.reg ⟨b.toNat, hb⟩) := by
  rw [aluBinary, formRR_lt ha hb] at h
  cases h
  simp

/-- Settles O30: the ALU's shifts are the mathematical ones narrowed to a byte, by definition; a large amount
leaves no bit of the byte. -/
theorem shiftsUseTheWholeAmount : Obligations.ShiftsUseTheWholeAmount := by
  refine ⟨binaryAluRule_of_aluBinary (fun _ _ => rfl) nofun (fun _ _ _ => rfl) rfl fun _ _ => rfl,
    binaryAluRule_of_aluBinary (fun _ _ => rfl) nofun (fun _ _ _ => rfl) rfl fun _ _ => rfl, ?_⟩
  rintro s t a b ha hb hlarge (h | h)
  · exact (reg_of_aluBinary_next ha hb h).trans (aluShl_of_large hlarge)
  · exact (reg_of_aluBinary_next ha hb h).trans (aluShr_of_large hlarge)

theorem exec_mod_lt {a b : Byte} {s : State} (ha : a.toNat < 8) (hb : b.toNat < 8)
    (hz : s.reg ⟨b.toNat, hb⟩ ≠ 0#8) :
    exec (.mod a b) s = .next ((s.setReg ⟨a.toNat, ha⟩
      (aluMod (s.reg ⟨a.toNat, ha⟩) (s.reg ⟨b.toNat, hb⟩))).advance .mod) :=
  (formRR_lt ha hb).trans (by rw [if_neg hz, State.finish_ok])

theorem exec_mod_zero {a b : Byte} {s : State} (ha : a.toNat < 8) (hb : b.toNat < 8)
    (hz : s.reg ⟨b.toNat, hb⟩ = 0#8) :
    exec (.mod a b) s = raised s .mod (.divideByZero ⟨b.toNat, hb⟩) :=
  (formRR_lt ha hb).trans (by rw [if_pos hz]; rfl)

/-- Settles O31: MOD's arm past the register checks, with a divisor of 0 and with another. -/
theorem modGivesTheRemainder : Obligations.ModGivesTheRemainder := by
  refine ⟨fun a b => encodedAs_encode (c := defaultConfig) rfl (i := .mod a b) nofun,
    fun s a b ha hb => ?_, checksRegisters_of_formRR fun _ _ _ => rfl, fetchIsBounded .mod⟩
  by_cases hz : s.regs[b.toNat] = 0#8
  · rw [if_pos hz]
    exact exec_mod_zero ha hb hz
  · rw [if_neg hz]
    exact exec_mod_lt ha hb hz

theorem exec_addi_lt {imm r : Byte} {s : State} (h : r.toNat < 8) :
    exec (.addi imm r) s =
      .next ((s.setReg ⟨r.toNat, h⟩ (aluAdd (s.reg ⟨r.toNat, h⟩) imm)).advance .addi) :=
  formR_lt h

/-- Settles O32: the effect is ADDI's arm past the register check; the bytes are its encoding. -/
theorem addiAddsTheImmediate : Obligations.AddiAddsTheImmediate :=
  ⟨fun _ hc => decodeBytes_addi hc, fun _ _ _ h => exec_addi_lt h,
    fun _ => checksRegister_of_formR fun _ _ => rfl, fetchIsBounded .addi⟩

/-! ### PUSH and CALL (R141, R145, R160) -/

theorem exec_push_inside {r : Byte} {s : State} (h : r.toNat < 8) (hin : s.pushSp.toNat < 128) :
    exec (.push r) s = .next (((s.setSp s.pushSp).setCell s.pushSp.toNat
      ((s.setSp s.pushSp).reg ⟨r.toNat, h⟩)).advance .push) :=
  (formR_lt h).trans (by rw [State.push_lt hin, State.finish_ok])

theorem exec_push_outside {r : Byte} {s : State} (h : r.toNat < 8) (hout : 128 ≤ s.pushSp.toNat) :
    exec (.push r) s = raised s .push (.outOfBounds .memory s.pushSp.toNat) :=
  (formR_lt h).trans (by rw [State.push_ge hout]; rfl)

theorem exec_call_inside {r : Byte} {s : State} (h : r.toNat < 8) (hin : s.pushSp.toNat < 128) :
    exec (.call r) s = .next (((s.setSp s.pushSp).setCell s.pushSp.toNat (s.pc + 2#8)).jump
      ((s.setSp s.pushSp).reg ⟨r.toNat, h⟩)) :=
  (formR_lt h).trans (by rw [State.push_lt hin, State.finish_ok]; rfl)

theorem exec_call_outside {r : Byte} {s : State} (h : r.toNat < 8) (hout : 128 ≤ s.pushSp.toNat) :
    exec (.call r) s = raised s .call (.outOfBounds .memory s.pushSp.toNat) :=
  (formR_lt h).trans (by rw [State.push_ge hout]; rfl)

/-- A register read after SP was written: R7 reads the new SP (R11, D10). -/
theorem State.reg_setSp_ofNat (s : State) (r p : Byte) (h : r.toNat < 8) :
    (s.setSp p).reg ⟨r.toNat, h⟩ = if r.toNat = 7 then p else s.regs[r.toNat] := by
  have hiff : (⟨r.toNat, h⟩ : Reg) = spReg ↔ r.toNat = 7 := Fin.ext_iff
  simp only [State.reg_setSp, hiff]
  rfl

/-- Settles O33: PUSH's arm past the register check, with the cell inside Memory and outside. -/
theorem pushStoresBelowSp : Obligations.PushStoresBelowSp := by
  rintro s r p h (rfl : p = s.pushSp)
  split
  · rename_i hin
    rw [exec_push_inside h hin, State.reg_setSp_ofNat]
    rfl
  · rename_i hout
    exact exec_push_outside h (Nat.not_lt.mp hout)

/-- Settles O39: CALL's arm past the register check, with the cell inside Memory and outside. -/
theorem callPushesTheReturnAddress : Obligations.CallPushesTheReturnAddress := by
  rintro s r p h (rfl : p = s.pushSp)
  split
  · rename_i hin
    rw [exec_call_inside h hin, State.reg_setSp_ofNat]
    rfl
  · rename_i hout
    exact exec_call_outside h (Nat.not_lt.mp hout)

/-! ### POP and RET (R142, R143, R146, R161) -/

theorem exec_pop_inside {r : Byte} {s : State} (h : r.toNat < 8) (he : s.sp ≠ s.cfg.stackSentinel)
    (hin : s.sp.toNat < 128) :
    exec (.pop r) s = .next ((s.popped fun u v => u.setReg ⟨r.toNat, h⟩ v).advance .pop) :=
  (formR_lt h).trans (by rw [State.pop_value he hin, State.finish_ok])

theorem exec_pop_outside {r : Byte} {s : State} (h : r.toNat < 8) (he : s.sp ≠ s.cfg.stackSentinel)
    (hout : 128 ≤ s.sp.toNat) : exec (.pop r) s = raised s .pop (.outOfBounds .memory s.sp.toNat) :=
  (formR_lt h).trans (by rw [State.pop_outside he hout]; rfl)

theorem exec_pop_empty_fatal {r : Byte} {s : State} (h : r.toNat < 8) (he : s.sp = s.cfg.stackSentinel)
    (hf : s.cfg.underflowFatal = true) : exec (.pop r) s = raised s .pop (.stackUnderflow s.sp) :=
  (formR_lt h).trans (by rw [State.pop_empty_fatal he hf]; rfl)

theorem exec_pop_empty_report {r : Byte} {s : State} (h : r.toNat < 8) (he : s.sp = s.cfg.stackSentinel)
    (hf : s.cfg.underflowFatal = false) :
    exec (.pop r) s = .next ((s.report .stackUnderflow s.sp).advance .pop) :=
  (formR_lt h).trans (by rw [State.pop_empty_report he hf, State.finish_ok])

theorem exec_ret_inside {s : State} (he : s.sp ≠ s.cfg.stackSentinel) (hin : s.sp.toNat < 128) :
    exec .ret s = .next (s.popped fun u v => u.jump v) := by
  simp only [exec, execRet, State.pop_value he hin, formF0, State.finish_ok]

theorem exec_ret_outside {s : State} (he : s.sp ≠ s.cfg.stackSentinel) (hout : 128 ≤ s.sp.toNat) :
    exec .ret s = raised s .ret (.outOfBounds .memory s.sp.toNat) := by
  simp only [exec, execRet, State.pop_outside he hout]
  rfl

theorem exec_ret_empty_fatal {s : State} (he : s.sp = s.cfg.stackSentinel)
    (hf : s.cfg.underflowFatal = true) : exec .ret s = raised s .ret (.stackUnderflow s.sp) := by
  simp only [exec, execRet, State.pop_empty_fatal he hf]
  rfl

theorem exec_ret_empty_report {s : State} (he : s.sp = s.cfg.stackSentinel)
    (hf : s.cfg.underflowFatal = false) :
    exec .ret s = .next ((s.report .stackUnderflow s.sp).advance .ret) := by
  simp only [exec, execRet, State.pop_empty_report he hf, formF0, State.finish_ok]

/-- SP re-read after the popped byte was written: POP R7 sees the byte (R142, D10). -/
theorem State.sp_setReg_ofNat (s : State) (r v : Byte) (h : r.toNat < 8) :
    (s.setReg ⟨r.toNat, h⟩ v).sp = if r.toNat = 7 then v else s.regs[7] := by
  have hiff : spReg = (⟨r.toNat, h⟩ : Reg) ↔ r.toNat = 7 := by
    rw [eq_comm]
    exact Fin.ext_iff
  simp only [State.sp_setReg, hiff]
  rfl

/-- Settles O34: POP's arm past the register check, with SP inside Memory and outside. -/
theorem popLoadsFromSp : Obligations.PopLoadsFromSp := by
  intro s r h he
  split
  · rename_i hin
    rw [exec_pop_inside h he hin, State.popped, State.sp_setReg_ofNat]
    rfl
  · rename_i hout
    exact exec_pop_outside h he (Nat.not_lt.mp hout)

/-- Settles O35: RET's arm, with SP inside Memory and outside. -/
theorem retResumesAtThePoppedByte : Obligations.RetResumesAtThePoppedByte := by
  intro s he
  split
  · rename_i hin
    exact exec_ret_inside he hin
  · rename_i hout
    exact exec_ret_outside he (Nat.not_lt.mp hout)

/-- Settles O36: the arms of RET and POP on an empty stack, under either policy. -/
theorem emptyStackFollowsThePolicy : Obligations.EmptyStackFollowsThePolicy :=
  fun _ he => ⟨fun hf => ⟨exec_ret_empty_fatal he hf, fun _ h => exec_pop_empty_fatal h he hf⟩,
    fun hf => ⟨exec_ret_empty_report he hf, fun _ h => exec_pop_empty_report h he hf⟩⟩

/-! ### Push and pop, call and return (R147, R162) -/

theorem State.regs_seven (s : State) : s.regs[7] = s.sp := rfl

/-- Where a Push starts: SP, or the sentinel when SP is 0 (R141). -/
def State.stackTop (s : State) : Byte := if s.sp = 0#8 then s.cfg.stackSentinel else s.sp

theorem State.pushSp_eq (s : State) : s.pushSp = s.stackTop - 1#8 := rfl

/-- A Push that a Pop can undo: it starts in 1..128 and does not land on the sentinel (R147, C4). -/
structure State.Undoable (s : State) : Prop where
  pos : 1 ≤ s.stackTop.toNat
  le : s.stackTop.toNat ≤ 128
  ne_sentinel : s.pushSp ≠ s.cfg.stackSentinel

theorem State.undoable_of_sp_pos {s : State} (hpos : 1 ≤ s.sp.toNat) (hle : s.sp.toNat ≤ 128)
    (hne : s.sp - 1#8 ≠ s.cfg.stackSentinel) : s.Undoable ∧ s.stackTop = s.sp := by
  have hz : s.sp ≠ 0#8 := by
    intro hz
    simp [hz] at hpos
  have htop : s.stackTop = s.sp := if_neg hz
  exact ⟨⟨htop ▸ hpos, htop ▸ hle, by rwa [State.pushSp_eq, htop]⟩, htop⟩

theorem State.undoable_of_sp_zero {s : State} (hz : s.sp = 0#8) (hc : s.cfg.Admissible) :
    s.Undoable ∧ s.stackTop = s.cfg.stackSentinel := by
  obtain ⟨-, -, hpos, hle⟩ := hc
  have htop : s.stackTop = s.cfg.stackSentinel := if_pos hz
  refine ⟨⟨htop ▸ hpos, htop ▸ hle, ?_⟩, htop⟩
  rw [State.pushSp_eq, htop]
  bv_omega

theorem State.Undoable.pushSp_lt {s : State} (h : s.Undoable) : s.pushSp.toNat < 128 := by
  have hpos := h.pos
  have hle := h.le
  rw [State.pushSp_eq]
  bv_omega

theorem State.pushSp_add_one (s : State) : s.pushSp + 1#8 = s.stackTop := by
  rw [State.pushSp_eq, BitVec.sub_add_cancel]

/-- After an undoable PUSH of a register other than R7, a POP into one gives the value back, and SP is where
the Push started. -/
theorem State.Undoable.push_pop {s : State} {v : Byte} (h : s.Undoable) (htop : s.stackTop = v)
    {r r' : Byte} (hr : r.toNat < 7) (hr' : r'.toNat < 7) :
    ∃ t u, exec (.push r) s = .next t ∧ exec (.pop r') t = .next u ∧
      u.regs[r'.toNat] = s.regs[r.toNat] ∧ u.regs[7] = v := by
  have hreg : ∀ {r : Byte} (hr : r.toNat < 7), (⟨r.toNat, by omega⟩ : Reg) ≠ spReg :=
    fun hr => Fin.ne_of_lt hr
  have hpush := exec_push_inside (show r.toNat < 8 by omega) h.pushSp_lt
  refine ⟨_, _, hpush, exec_pop_inside (show r'.toNat < 8 by omega) ?_ ?_, ?_, ?_⟩
  · simpa using h.ne_sentinel
  · simpa using h.pushSp_lt
  · change State.reg _ ⟨r'.toNat, by omega⟩ = s.reg ⟨r.toNat, by omega⟩
    simp [State.popped, hreg hr, hreg hr']
  · rw [State.regs_seven]
    simp [State.popped, (hreg hr').symm, State.pushSp_add_one, htop]

/-- Settles O37: in both cases the Push is undoable, from SP itself and from the sentinel. -/
theorem pushThenPopRoundTrips : Obligations.PushThenPopRoundTrips := by
  refine fun s r r' h h' => ⟨fun hpos hle hne => ?_, fun hz hc => ?_⟩
  · obtain ⟨hundo, htop⟩ := State.undoable_of_sp_pos hpos hle hne
    exact hundo.push_pop htop h h'
  · obtain ⟨hundo, htop⟩ := State.undoable_of_sp_zero hz hc
    exact hundo.push_pop htop h h'

/-- Settles O40: in both cases the Push is undoable, and RET needs only SP and the cell the CALL wrote. -/
theorem callThenRetRoundTrips : Obligations.CallThenRetRoundTrips := by
  intro s r hr hcase
  have hundo : s.Undoable := by
    rcases hcase with ⟨hpos, hle, hne⟩ | ⟨hz, hc⟩
    · exact (State.undoable_of_sp_pos hpos hle hne).1
    · exact (State.undoable_of_sp_zero hz hc).1
  refine ⟨_, exec_call_inside hr hundo.pushSp_lt, fun u hcfg hsp hcell => ?_⟩
  replace hcfg : u.cfg = s.cfg := hcfg
  simp only [State.regs_seven, State.sp_jump, State.sp_setCell, State.sp_setSp, State.jump_mem,
    State.setCell_mem, Memory.read_write, if_true] at hsp hcell
  refine ⟨_, exec_ret_inside ?_ ?_, ?_, ?_⟩
  · rw [hsp, hcfg]
    exact hundo.ne_sentinel
  · rw [hsp]
    exact hundo.pushSp_lt
  · simp [State.popped, hsp, hcell]
  · change State.sp _ = s.stackTop
    simp [State.popped, hsp, State.pushSp_add_one]

end Sys2Proof.Machine

/-! ### Pushes in a row (R144) -/

namespace Sys2Proof.Machine

/-- What `n` pushes of a register leave, from SP at the sentinel: they filled the cells below it downward. -/
structure Pushed (s : State) (j : Reg) (n : Nat) (t : State) : Prop where
  cfg : t.cfg = s.cfg
  reg : t.reg j = s.reg j
  sp : t.sp.toNat = s.cfg.stackSentinel.toNat - n
  read : ∀ a, t.mem.read a =
    if s.cfg.stackSentinel.toNat - n ≤ a ∧ a < s.cfg.stackSentinel.toNat then s.reg j else s.mem.read a

theorem Pushed.zero {s : State} {j : Reg} (hsp : s.sp = s.cfg.stackSentinel) : Pushed s j 0 s where
  cfg := rfl
  reg := rfl
  sp := by rw [hsp, Nat.sub_zero]
  read a := by rw [if_neg (by omega)]

/-- One more push, as long as there is a cell below. -/
theorem Pushed.succ {s t : State} {r : Byte} {n : Nat} (hr : r.toNat < 7) (hc : s.cfg.Admissible)
    (hn : n < s.cfg.stackSentinel.toNat) (h : Pushed s ⟨r.toNat, by omega⟩ n t) :
    ∃ u, exec (.push r) t = .next u ∧ Pushed s ⟨r.toNat, by omega⟩ (n + 1) u := by
  obtain ⟨hcfg, hreg, hsp, hread⟩ := h
  obtain ⟨-, -, -, hle⟩ := hc
  have hne : (⟨r.toNat, by omega⟩ : Reg) ≠ spReg := Fin.ne_of_lt hr
  have hz : t.sp ≠ 0#8 := by
    intro hz
    simp only [hz, BitVec.toNat_ofNat] at hsp
    omega
  have hpush : t.pushSp.toNat = s.cfg.stackSentinel.toNat - (n + 1) := by
    rw [State.pushSp, if_neg hz]
    bv_omega
  refine ⟨_, exec_push_inside (show r.toNat < 8 by omega) (by omega), hcfg, ?_, ?_, fun a => ?_⟩
  · simp [hne, hreg]
  · simpa using hpush
  · simp only [State.advance_mem, State.setCell_mem, State.setSp_mem, Memory.read_write, hread, hpush,
      State.reg_setSp, if_neg hne, hreg]
    by_cases ha : a = s.cfg.stackSentinel.toNat - (n + 1)
    · rw [if_pos ha, if_pos (by omega)]
    · have hiff : (s.cfg.stackSentinel.toNat - n ≤ a ∧ a < s.cfg.stackSentinel.toNat) ↔
          (s.cfg.stackSentinel.toNat - (n + 1) ≤ a ∧ a < s.cfg.stackSentinel.toNat) := by omega
      simp only [if_neg ha, hiff]

theorem pushes_succ {r : Byte} {n : Nat} {s t : State} (h : pushes r n s = .next t) :
    pushes r (n + 1) s = exec (.push r) t := by
  simp only [pushes, h]

theorem pushes_pushed {s : State} {r : Byte} (hr : r.toNat < 7) (hc : s.cfg.Admissible)
    (hsp : s.sp = s.cfg.stackSentinel) (n : Nat) (hn : n ≤ s.cfg.stackSentinel.toNat) :
    ∃ t, pushes r n s = .next t ∧ Pushed s ⟨r.toNat, by omega⟩ n t := by
  induction n with
  | zero => exact ⟨s, rfl, .zero hsp⟩
  | succ n ih =>
    obtain ⟨t, hrun, ht⟩ := ih (by omega)
    obtain ⟨u, hu, hpushed⟩ := ht.succ hr hc hn
    exact ⟨u, (pushes_succ hrun).trans hu, hpushed⟩

/-- Settles O38, by induction on the number of pushes; after as many as the sentinel, SP is 0 and the next
push starts at the sentinel again. -/
theorem pushesFillDownwardAndWrap : Obligations.PushesFillDownwardAndWrap := by
  refine fun s r hr hc hsp => ⟨fun n hn => ?_, ?_⟩
  · obtain ⟨t, hrun, ht⟩ := pushes_pushed hr hc hsp n hn
    exact ⟨t, hrun, ht.sp, ht.read⟩
  · obtain ⟨t, hrun, ht⟩ := pushes_pushed hr hc hsp _ le_rfl
    have hz : t.sp = 0#8 := BitVec.eq_of_toNat_eq (by rw [ht.sp, Nat.sub_self]; rfl)
    have hpush : t.pushSp = s.cfg.stackSentinel - 1#8 := by rw [State.pushSp_of_sp_zero hz, ht.cfg]
    obtain ⟨-, -, hpos, hle⟩ := hc
    refine ⟨_, (pushes_succ hrun).trans (exec_push_inside (by omega) ?_), ?_⟩
    · rw [hpush]
      bv_omega
    · rw [State.regs_seven]
      simpa using hpush

/-! ### Frames of the instruction groups -/

/-! What an effect leaves alone, told by the mnemonic. -/

namespace EffectBound

variable {s t : State} {i : Instr} (h : EffectBound s t i)

include h

theorem fl_eq (hcmp : i.op ≠ .cmp) : t.fl = s.fl := by
  refine h.fl.resolve_right ?_
  rintro ⟨a, b, rfl⟩
  exact hcmp rfl

theorem mem_eq (hpush : i.op ≠ .push) (hcall : i.op ≠ .call) : t.mem = s.mem := by
  refine h.mem.resolve_right ?_
  rintro ⟨⟨r, rfl | rfl⟩, -⟩
  · exact hpush rfl
  · exact hcall rfl

theorem status_eq (hhlt : i.op ≠ .hlt) : t.status = s.status := by
  refine (h.status.resolve_right ?_).1
  rintro ⟨-, rfl⟩
  exact hhlt rfl

theorem out_eq (hprn : i.op ≠ .prn) : t.out = s.out := by
  refine h.out.resolve_right ?_
  rintro ⟨r, hr, rfl, -⟩
  exact hprn rfl

theorem diag_eq (hpop : i.op ≠ .pop) (hret : i.op ≠ .ret) : t.diag = s.diag := by
  refine h.diag.resolve_right ?_
  rintro ⟨rfl | ⟨r, rfl⟩, -⟩
  · exact hret rfl
  · exact hpop rfl

end EffectBound

/-- An instruction with a destination is of no other group. -/
theorem op_ne_of_destReg {i : Instr} {d : Byte} (h : destReg i = some d) :
    i.op ≠ .cmp ∧ i.op ≠ .prn ∧ i.op ≠ .hlt ∧ i.op ≠ .push ∧ i.op ≠ .call ∧ i.op ≠ .pop ∧ i.op ≠ .ret := by
  cases i <;> simp [destReg] at h <;> simp [Instr.op]

/-- Settles O44: a fault leaves all but STATUS, and no instruction with a destination writes more than it. -/
theorem registerFormsFrame : Obligations.RegisterFormsFrame := by
  intro i d s t hd h
  rcases exec_next h with heff | ⟨c, -, rfl⟩
  · have hb := heff.bound
    obtain ⟨hcmp, hprn, hhlt, hpush, hcall, hpop, hret⟩ := op_ne_of_destReg hd
    exact ⟨fun j hj => hb.reg j fun hw => hj ((writesReg_iff_of_destReg hd j).mp hw), hb.fl_eq hcmp,
      fun a => by rw [hb.mem_eq hpush hcall], hb.out_eq hprn, hb.diag_eq hpop hret, hb.cfg,
      .inl (hb.status_eq hhlt)⟩
  · exact ⟨fun _ _ => rfl, rfl, fun _ => rfl, rfl, rfl, rfl, .inr ⟨_, rfl⟩⟩

/-- Settles O45: a fault leaves all but STATUS, and an effect stores in the one cell. -/
theorem storingFormsFrame : Obligations.StoringFormsFrame := by
  intro i r s t hi h
  rcases exec_next h with heff | ⟨c, -, rfl⟩
  · have hb := heff.bound
    have hother : ∀ o, o ≠ .push → o ≠ .call → i.op ≠ o := by
      rintro o hpush hcall rfl
      rcases hi with rfl | rfl
      · exact hpush rfl
      · exact hcall rfl
    refine ⟨fun j hj => hb.reg j fun hw => hj ?_, hb.fl_eq (hother _ nofun nofun), fun a ha => ?_,
      hb.out_eq (hother _ nofun nofun), hb.diag_eq (hother _ nofun nofun) (hother _ nofun nofun), hb.cfg,
      .inl (hb.status_eq (hother _ nofun nofun))⟩
    · rcases hi with rfl | rfl <;> exact congrArg Fin.val hw
    · rcases hb.mem with hmem | ⟨-, -, v, hmem⟩ <;> simp [hmem, ha]
  · exact ⟨fun _ _ => rfl, rfl, fun _ _ => rfl, rfl, rfl, rfl, .inr ⟨_, rfl⟩⟩

/-- Settles O46: a fault leaves all but STATUS, and an effect that reports leaves every register. -/
theorem poppingFormsFrame : Obligations.PoppingFormsFrame := by
  intro i s t hi h
  rcases exec_next h with heff | ⟨c, -, rfl⟩
  · have hb := heff.bound
    have hother : ∀ o, o ≠ .ret → o ≠ .pop → i.op ≠ o := by
      rintro o hret hpop rfl
      rcases hi with rfl | ⟨r, rfl⟩
      · exact hret rfl
      · exact hpop rfl
    refine ⟨fun j hj hdest => hb.reg j fun hw => ?_, hb.fl_eq (hother _ nofun nofun),
      fun a => by rw [hb.mem_eq (hother _ nofun nofun) (hother _ nofun nofun)],
      hb.out_eq (hother _ nofun nofun), hb.cfg, ?_, .inl (hb.status_eq (hother _ nofun nofun))⟩
    · rcases hi with rfl | ⟨r, rfl⟩
      · exact hj (congrArg Fin.val hw)
      · rcases hw with hsp | hr
        · exact hj (congrArg Fin.val hsp)
        · exact hdest r rfl hr
    · exact hb.diag.imp_right fun ⟨_, he, hf, hregs, _⟩ => ⟨he, hf, hregs⟩
  · exact ⟨fun _ _ _ => rfl, rfl, fun _ => rfl, rfl, rfl, .inl rfl, .inr ⟨_, rfl⟩⟩

/-- Settles O47: a fault leaves all but STATUS, and these instructions write no register and are of
no stack form. -/
theorem controlFormsFrame : Obligations.ControlFormsFrame := by
  intro i s t hi h
  have hnone : ∀ j, ¬ writesReg i j := by
    rcases hi with rfl | ⟨r, rfl | rfl | rfl | rfl⟩ | ⟨a, b, rfl⟩ <;> rintro j ⟨d, hd, -⟩ <;> cases hd
  have hstack : i.op ≠ .push ∧ i.op ≠ .call ∧ i.op ≠ .pop ∧ i.op ≠ .ret := by
    rcases hi with rfl | ⟨r, rfl | rfl | rfl | rfl⟩ | ⟨a, b, rfl⟩ <;> simp [Instr.op]
  obtain ⟨hpush, hcall, hpop, hret⟩ := hstack
  rcases exec_next h with heff | ⟨c, -, rfl⟩
  · have hb := heff.bound
    exact ⟨Vector.ext fun j hj => hb.reg ⟨j, hj⟩ (hnone _), fun a => by rw [hb.mem_eq hpush hcall],
      hb.diag_eq hpop hret, hb.cfg, hb.fl_eq, hb.out_eq, fun hhlt => .inl (hb.status_eq hhlt)⟩
  · exact ⟨rfl, fun _ => rfl, rfl, rfl, fun _ => rfl, fun _ => rfl, fun _ => .inr ⟨_, rfl⟩⟩

/-! ### Reset and launch (R230 to R233) -/

theorem State.reg_resetWith (c : Config) (j : Reg) : (State.resetWith c).reg j = 0#8 := by
  simp [State.reg, State.resetWith, Vector.get_eq_getElem]

/-- Settles O48: the fields of the reset state, and the defaults it is given after reset. -/
theorem resetLeavesTheStatedValues : Obligations.ResetLeavesTheStatedValues :=
  ⟨fun c _ => ⟨rfl, State.reg_resetWith c, rfl, rfl, Memory.read_nil, rfl, rfl, rfl, rfl⟩, rfl, rfl, rfl, rfl⟩

theorem launch_of_length_le {c : Config} {image : List Byte} (h : image.length ≤ 128) :
    launch c image = some { State.resetWith c with mem := Memory.place [] 0 image } :=
  if_pos h

/-- Settles O49: an image that fits is placed in the empty memory of the reset state. -/
theorem launchPlacesTheImage : Obligations.LaunchPlacesTheImage := by
  refine fun c image => ⟨fun hle => ⟨_, launch_of_length_le hle, fun a ha => ?_, fun a ha => ?_, rfl⟩,
    fun hlt => if_neg (Nat.not_le.mpr hlt)⟩
  · simp only [Memory.read_place]
    rw [dif_pos ⟨Nat.zero_le a, by omega, by omega⟩]
    simp
  · simp only [Memory.read_place]
    rw [dif_neg (by omega), Memory.read_nil]

end Sys2Proof.Machine
